-- ==== Sys2Proof/Word.lean ====
section
/-! DEFINITION. The three widths the block computes with (rules R4, R14, R39). -/

namespace Sys2Proof

/-- The accumulator and the result: `W = 16` bits, unsigned (R4, R15). -/
abbrev Word := BitVec 16

/-- The input unit: `B = 8` bits, unsigned (R4, R28). -/
abbrev Byte := BitVec 8

/-- A command word as the host presents it: 10 bits, `op[9:8] ‖ data[7:0]` (R39). -/
abbrev CmdWord := BitVec 10

end Sys2Proof
end

