-- ==== Sys2Proof/Syntax.lean ====
section
/-! DEFINITION. The commands, one constructor for each row of spec/opcode_table.json. A reserved word names no operation
(R46), so it is no command here: the decoder refuses it and the machine takes the fault of R77 on it. -/

namespace Sys2Proof

inductive Instr where
  /-- NOP: idle, no effect (R57). -/
  | nop
  /-- INIT: start a new checksum (R58). -/
  | init
  /-- UPDATE: absorb the byte `b` (R59). -/
  | update (b : Byte)
deriving DecidableEq, Repr

end Sys2Proof
end

