-- ==== Sys2Proof/WellFormed.lean ====
section
/-! DEFINITION. Which commands and which command words are well formed. A command's one operand is a byte by its type
(R41), so every `Instr` is well formed; the checks are on the WORDS, written as the opcode table writes them (mask and
match), apart from the decoder's field form, so that the two can be compared. -/

namespace Sys2Proof

/-- Every command is well formed: `NOP` and `INIT` have no operand, and every byte is a legal operand of `UPDATE` (R41, R59). -/
def Instr.wellFormed : Instr → Bool
  | .nop => true
  | .init => true
  | .update _ => true

/-- A row of spec/opcode_table.json: the word belongs to the row when its bits under `mask` are `pattern`. -/
structure OpcodeRow where
  mnemonic : String
  mask     : CmdWord
  pattern  : CmdWord
deriving DecidableEq, Repr

def OpcodeRow.covers (r : OpcodeRow) (w : CmdWord) : Bool :=
  w &&& r.mask == r.pattern

def rowNop : OpcodeRow := { mnemonic := "NOP", mask := 0x3FF#10, pattern := 0x000#10 }       -- R43
def rowInit : OpcodeRow := { mnemonic := "INIT", mask := 0x3FF#10, pattern := 0x100#10 }     -- R44
def rowUpdate : OpcodeRow := { mnemonic := "UPDATE", mask := 0x300#10, pattern := 0x200#10 } -- R45

/-- The opcode table, row for row. -/
def opcodeTable : List OpcodeRow := [rowNop, rowInit, rowUpdate]

/-- The row of the table that stands for a command. -/
def Instr.row : Instr → OpcodeRow
  | .nop => rowNop
  | .init => rowInit
  | .update _ => rowUpdate

/-- A command word is legal when some row of the table covers it; every other word is reserved (R42, R46, R47). -/
def legalWord (w : CmdWord) : Bool :=
  opcodeTable.any fun r => r.covers w

end Sys2Proof
end

