-- ==== Sys2Proof/Decode.lean ====
section
/-! DEFINITION. The decoder (total, rejecting by name) and the encoder (R39 to R48), and the host's window on the decoder. -/

namespace Sys2Proof

/-- The `op` field, bits `[9:8]` (R39). -/
def opField (w : CmdWord) : BitVec 2 := w.extractLsb' 8 2

/-- The `data` field, bits `[7:0]`: the one operand, never sign-extended, scaled or shifted (R39, R41). -/
def dataField (w : CmdWord) : Byte := w.extractLsb' 0 8

/-- Why a word is reserved: which clause of R46 makes it so. The spec has ONE verdict, RESERVED; the machine treats the three
alike (log entry 8). -/
inductive Reserved where
  /-- `op = 0b00` with nonzero data: not `NOP` (R42, R43). -/
  | nopData (d : Byte)
  /-- `op = 0b01` with nonzero data: not `INIT` (R42, R44). -/
  | initData (d : Byte)
  /-- `op = 0b11`, whatever the data (R42). -/
  | opReserved
deriving DecidableEq, Repr

/-- R48: every word is `NOP`, `INIT`, `UPDATE` or reserved. -/
def decode (w : CmdWord) : Except Reserved Instr :=
  if opField w = 0b00#2 then
    if dataField w = 0x00#8 then .ok .nop else .error (.nopData (dataField w))
  else if opField w = 0b01#2 then
    if dataField w = 0x00#8 then .ok .init else .error (.initData (dataField w))
  else if opField w = 0b10#2 then .ok (.update (dataField w))
  else .error .opReserved

/-- R43, R44, R45: the word of each command. -/
def encode : Instr → CmdWord
  | .nop => 0x000#10
  | .init => 0x100#10
  | .update b => 0x200#10 ||| b.setWidth 10

/-- The command word in a bus word `w` of `nbits` bits. Of a wider word it is bits `[9:0]` (R40; log entry 7). A word NARROWER
than 10 bits the spec gives no reading; zero-extending it is the model's own (DESIGN CHOICE, log entry 15). -/
def busWord (nbits w : Nat) : CmdWord := BitVec.ofNat 10 (w % 2 ^ nbits)

/-- What the decoder reads from a word numbered as spec/opcode_table.json numbers its bits (a word shorter than 10 bits: log
entry 15). -/
def decodeTableWord (nbits w : Nat) : Option Instr :=
  match decode (busWord nbits w) with
  | .ok i => some i
  | .error _ => none

end Sys2Proof
end

