-- ==== Sys2Proof/Config.lean ====
section
/-! DEFINITION. The block's parameters: the hardwired ones of rule R4, and the two timing parameters rule R98 leaves open.

The widths `W` and `B` of R4 are the types of Word.lean. The final XOR `XOROUT = 0x0000` and the reflected output of R4
mean that the result is the accumulator as it stands: nothing is applied to it (R16, R64). -/

namespace Sys2Proof.Config

/-- `POLY`: the reflected polynomial constant the bit step XORs in (R4, R23, R54). -/
def poly : Word := 0xA001#16

/-- `INIT`: the initial accumulator value (R4, R23, R58, R92). -/
def accInit : Word := 0xFFFF#16

/-- `K`: the number of shift-and-XOR iterations for each input byte (R4, R56). -/
def stepsPerByte : Nat := 8

/-- What an implementation fixes and the spec leaves open: one less than `CMD_LATENCY`, so that the bound of R98 holds whatever
this is. No definition of the machine reads it: the model has no time (R100). -/
opaque cmdLatencyPred : Nat

/-- As `cmdLatencyPred`, for `RESET_LATENCY` (R98). -/
opaque resetLatencyPred : Nat

/-- `CMD_LATENCY`: the clock cycles of a port-level implementation from accepting a command word to the outputs showing its
effect, at least 1 and otherwise open (R98, D18). -/
def cmdLatency : Nat := cmdLatencyPred + 1

/-- `RESET_LATENCY`: the clock cycles from asserting reset to the outputs showing the reset values, at least 1 and otherwise
open (R98, D18). -/
def resetLatency : Nat := resetLatencyPred + 1

end Sys2Proof.Config
end

