-- ==== Sys2Proof/Machine/State.lean ====
section
/-! DEFINITION. The state: the block's four fields (R14), and the host agent's side of R6: the events it has still to
present and the output values it got back. Plain data throughout. -/

namespace Sys2Proof.Machine

/-- The operating modes (R14, R17). They are no privilege levels (R86). -/
inductive Mode where
  /-- Powered on and not yet reset: no behaviour specified (R26, R79). -/
  | unreset
  /-- Running: command words act (R80). -/
  | run
  /-- A fault is recorded: every command word is ignored until a reset (R78). -/
  | faulted
deriving DecidableEq, Repr

/-- The state of the block: exactly these four fields (R14). -/
structure Block where
  mode     : Mode
  /-- The accumulator; no value while `mode` is `unreset` (R14, R15). -/
  acc      : Option Word
  /-- The hardware fault status, codes in Machine/Flags.lean (R18, R74). -/
  fault    : BitVec 2
  /-- The command word that caused the fault (R19). -/
  faultCmd : CmdWord
deriving DecidableEq, Repr

/-- The three outputs the host can sample (R16). -/
inductive Output where
  | crcOut
  | fault
  | faultCmd
deriving DecidableEq, Repr

/-- What a sample gives the host. `crcOut` carries `acc` as R16 says, so it carries "no value" exactly where `acc` has none;
in a consistent state a sample that completes always has one (log entry 5). -/
inductive Sample where
  | crcOut (v : Option Word)
  | fault (v : BitVec 2)
  | faultCmd (v : CmdWord)
deriving DecidableEq, Repr

/-- What the host can do to the block (R90, R91). -/
inductive HostEvent where
  /-- Present one command word. -/
  | command (w : CmdWord)
  /-- Assert reset (R92). -/
  | reset
  /-- Assert reset in the same step as presenting a word (R93; log entry 4). -/
  | resetWithCommand (w : CmdWord)
  /-- Sample one output (R16). -/
  | sample (o : Output)
  /-- Wait (R91). -/
  | pause
deriving DecidableEq, Repr

structure State where
  /-- The block (R14). -/
  block   : Block
  /-- The host's events still to come, the next one first (R21: the position in the sequence is the host's; log entry 1). -/
  pending : List HostEvent
  /-- The values the host's samples gave it, the oldest first (R90; log entry 2). -/
  samples : List Sample
deriving DecidableEq, Repr

/-- The model faults of R75: outcomes with no hardware behaviour and no next state (R12). The hardware fault RESERVED_COMMAND
is none of them: it is a next state (R77). -/
inductive Fault where
  /-- Raised by every command word and every output sample presented while `mode` is `unreset` (R79). Safe: the model stops
  where the hardware may go on. -/
  | notReset
deriving DecidableEq, Repr

inductive Refusal where
  /-- Raised by an arm of `exec` whose command has no meaning yet: by none. Safe: the model stops. -/
  | notModelled (mnemonic : String)
deriving DecidableEq, Repr

/-- The block right after reset (R26, R92). -/
def Block.afterReset : Block where
  mode := .run
  acc := some Config.accInit
  fault := 0b00#2
  faultCmd := 0x000#10

/-- The machine right after reset, the host having nothing to present and nothing sampled (log entries 1 and 2). -/
def State.reset : State where
  block := Block.afterReset
  pending := []
  samples := []

/-- The machine at power-on, for ANY values of the two fields the spec leaves unspecified there (R26, R95; log entry 6), the
host about to present `events`. -/
def State.powerOn (fault : BitVec 2) (faultCmd : CmdWord) (events : List HostEvent) : State where
  block := { mode := .unreset, acc := none, fault := fault, faultCmd := faultCmd }
  pending := events
  samples := []

end Sys2Proof.Machine
end

