-- ==== Sys2Proof/Machine/Operands.lean ====
section
/-! DEFINITION. The one operand form: the byte of an `UPDATE`, as a 16-bit value (R41). -/

namespace Sys2Proof.Machine

/-- `zext_16(data)`: the byte as a 16-bit value's low byte (R9, R41, R56). -/
def operand (b : Byte) : Word := b.setWidth 16

end Sys2Proof.Machine
end

