-- ==== Sys2Proof/Machine/Arith.lean ====
section
/-! DEFINITION. The block's arithmetic (R53 to R56): the bit step, its inverse (R62) and the byte absorb. -/

namespace Sys2Proof.Machine

/-- The bit step, `step` of R54: shift right logically by one (R55), and XOR in the polynomial if a 1 was shifted out. -/
def bitStep (a : Word) : Word :=
  if a.getLsbD 0 then (a >>> 1) ^^^ Config.poly else a >>> 1

/-- The inverse of the bit step, `unstep` of R62. -/
def bitUnstep (y : Word) : Word :=
  if y.getLsbD 15 then ((y ^^^ Config.poly) <<< 1) ||| 0x0001#16 else y <<< 1

/-- `step^k`: `k` bit steps (R9). -/
def bitSteps : Nat → Word → Word
  | 0, a => a
  | k + 1, a => bitSteps k (bitStep a)

/-- The byte absorb of R56: XOR the byte into the low 8 bits, then 8 bit steps, whatever the values. -/
def absorb (a : Word) (b : Byte) : Word :=
  bitSteps Config.stepsPerByte (a ^^^ operand b)

end Sys2Proof.Machine
end

