-- ==== Sys2Proof/Machine/Flags.lean ====
section
/-! DEFINITION. Status. The block has no flags and the arithmetic sets none (R22, R53): there is no flag computation. Its one
status is the `fault` field, whose codes stand here (R18, R74). -/

namespace Sys2Proof.Machine

/-- NONE: no fault since the last reset (R18, R74). -/
def faultNone : BitVec 2 := 0b00#2

/-- RESERVED_COMMAND: a reserved word was presented while the block ran (R18, R74, R77). -/
def faultReservedCommand : BitVec 2 := 0b01#2

end Sys2Proof.Machine
end

