-- ==== Sys2Proof/Machine/Ops.lean ====
section
/-! DEFINITION. The named operations on the block and on the host's side: the accumulator's writes, the outputs, reset,
taking the RESERVED_COMMAND fault, and the mode check that every command word goes through (R80). There is no return from a
fault: reset is the one exit (R83). -/

namespace Sys2Proof.Machine

/-- `acc <- v` (R10). -/
def Block.writeAcc (b : Block) (v : Word) : Block := { b with acc := some v }

/-- `acc <- absorb(acc, d)` (R59). An accumulator with no value keeps none, which no consistent block meets (log entry 5). -/
def Block.absorbByte (b : Block) (d : Byte) : Block := { b with acc := b.acc.map fun a => absorb a d }

/-- Taking the one hardware fault (R77): the mode, the code and the whole word are recorded, `acc` is not written, and nothing
else is saved (R82). -/
def Block.takeReservedCommand (b : Block) (w : CmdWord) : Block :=
  { b with mode := .faulted, fault := faultReservedCommand, faultCmd := w }

/-- The value an output shows while the block is not `unreset` (R16). -/
def Block.output (b : Block) : Output → Sample
  | .crcOut => .crcOut b.acc
  | .fault => .fault b.fault
  | .faultCmd => .faultCmd b.faultCmd

/-- The mode check of R80, in its order: before the first reset a command word is the model fault, in `faulted` it is
ignored, and in `run` it does `f`. -/
def whenRunning (f : Block → Block) (s : State) : Host.Outcome State Fault Refusal :=
  match s.block.mode with
  | .unreset => .fault .notReset
  | .faulted => .next s
  | .run => .next { s with block := f s.block }

/-- A reserved word `w` is presented (R46, R77, R78, R79). -/
def reservedCommand (w : CmdWord) (s : State) : Host.Outcome State Fault Refusal :=
  whenRunning (fun b => b.takeReservedCommand w) s

/-- Reset, in any mode (R92): nothing of the block before it is left. -/
def resetBlock (s : State) : Host.Outcome State Fault Refusal :=
  .next { s with block := Block.afterReset }

/-- The host samples an output: the block does not change, and the host gets the value (R16, R90). -/
def sampleOutput (o : Output) (s : State) : Host.Outcome State Fault Refusal :=
  match s.block.mode with
  | .unreset => .fault .notReset
  | .run => .next { s with samples := s.samples ++ [s.block.output o] }
  | .faulted => .next { s with samples := s.samples ++ [s.block.output o] }

/-- The host's next event, and the state in which the host has presented it. -/
def takeEvent (s : State) : Option (HostEvent × State) :=
  match s.pending with
  | [] => none
  | e :: rest => some (e, { s with pending := rest })

/-- The host presents the command word `w` before everything else it has to present. -/
def State.presentFirst (s : State) (w : CmdWord) : State :=
  { s with pending := .command w :: s.pending }

/-- The host has exactly the command words `ws` to present, in order. -/
def State.presenting (s : State) (ws : List CmdWord) : State :=
  { s with pending := ws.map .command }

/-- The host has a reset and then exactly the command words `ws` to present: a run of R101. -/
def State.runOf (s : State) (ws : List CmdWord) : State :=
  { s with pending := .reset :: ws.map .command }

end Sys2Proof.Machine
end

