-- ==== Sys2Proof/Machine/Commands.lean ====
section
/-! DEFINITION. The meanings of the three commands (R57 to R59), each through the mode check of R80. -/

namespace Sys2Proof.Machine

/-- NOP writes no state (R57). -/
def execNop (s : State) : Host.Outcome State Fault Refusal :=
  whenRunning (fun b => b) s

/-- INIT writes `0xFFFF` to the accumulator (R58). -/
def execInit (s : State) : Host.Outcome State Fault Refusal :=
  whenRunning (fun b => b.writeAcc Config.accInit) s

/-- UPDATE absorbs the byte into the accumulator (R59). -/
def execUpdate (d : Byte) (s : State) : Host.Outcome State Fault Refusal :=
  whenRunning (fun b => b.absorbByte d) s

end Sys2Proof.Machine
end

