-- ==== Sys2Proof/Machine/Events.lean ====
section
/-! DEFINITION. What the block does on each thing the host can do to it (R80, R90 to R93). -/

namespace Sys2Proof.Machine

/-- `stepCmd` of R80. The mode is checked inside `exec` and `reservedCommand`, and decoding has no effect of its own, so the
order of R81 is kept. -/
def presentWord (w : CmdWord) (s : State) : Host.Outcome State Fault Refusal :=
  match decode w with
  | .ok i => exec i s
  | .error _ => reservedCommand w s

/-- The block's answer to one event of the host, the state being that after the host has presented it. -/
def handleEvent (e : HostEvent) (s : State) : Host.Outcome State Fault Refusal :=
  match e with
  | .command w => presentWord w s
  | .reset => resetBlock s
  | .resetWithCommand _ => resetBlock s     -- reset wins, the word is discarded (R81, R93)
  | .sample o => sampleOutput o s
  | .pause => .next s                       -- the block's state does not change while the host waits (R91)

end Sys2Proof.Machine
end

