-- ==== Sys2Proof/Machine/Step.lean ====
section
/-! DEFINITION. One step: the host's next event takes effect (R36). -/

namespace Sys2Proof.Machine

/-- The next event of the host takes effect; a host with nothing to present waits, and nothing changes (R91; log entry 3). -/
def step (s : State) : Host.Outcome State Fault Refusal :=
  match takeEvent s with
  | none => .next s
  | some (e, s') => handleEvent e s'

/-- The host's window: the word is presented by the very next step (log entry 1 says how a command comes to run). -/
def State.withFetchWord (s : State) (nbits w : Nat) : State :=
  s.presentFirst (busWord nbits w)

end Sys2Proof.Machine
end

