-- ==== Sys2Proof/Machine/Assembler.lean ====
section
/-! DEFINITION. The assembler of 30_encoding.md section 3 (R49 to R52): text to command words, or a refusal with the line
number. A refusal emits no word and is no fault of the block (R52). What the spec leaves open of the text form is in log
entries 9 to 12 and 16. Text is a list of characters; `assembleText` takes a string. -/

namespace Sys2Proof.Machine

/-- Why the assembler refuses a line (R52; the last three are forms R49 to R51 give no meaning, log entries 11 and 12). -/
inductive AsmReason where
  /-- An unknown mnemonic (R52). -/
  | unknownMnemonic
  /-- `update` with no operand (R52), or `.cmd` with none (log entry 12). -/
  | missingOperand
  /-- `update` with more than one operand (R52), or `.cmd` (log entry 12). -/
  | tooManyOperands
  /-- An `<imm8>` outside 0 to 255 or a `.cmd` operand outside 0 to 1023 (R52). -/
  | outOfRange
  /-- Any operand on `nop` or `init` (R52). -/
  | unexpectedOperand
  /-- An operand that is no unsigned number in one of the three bases of R49 (log entry 11). -/
  | notANumber
  /-- Operands of `crc` that are not separated by single commas (R51; log entry 12). -/
  | malformedList
deriving DecidableEq, Repr

/-- A refusal names its line (R52). From where the line is counted the spec leaves open; that every line of the text counts,
blank and comment lines too, and that the first is line 1, is the model's own (DESIGN CHOICE, log entry 16). -/
structure AsmRefusal where
  line   : Nat
  reason : AsmReason
deriving DecidableEq, Repr

/-- White space inside a line (log entry 9). -/
def isBlankChar (c : Char) : Bool := c == ' ' || c == '\t' || c == '\r'

/-- A `;` starts a comment that runs to the end of the line (R49). -/
def stripComment (line : List Char) : List Char := line.takeWhile fun c => c != ';'

/-- The token collected so far, if it has any character. -/
def flushToken (cur : List Char) : List (List Char) := if cur = [] then [] else [cur]

/-- Splits a line into tokens at white space; a comma is a token of its own. `cur` is the token being read. -/
def tokensFrom (cur : List Char) : List Char → List (List Char)
  | [] => flushToken cur
  | c :: cs =>
    if c = ',' then flushToken cur ++ [[',']] ++ tokensFrom [] cs
    else if isBlankChar c then flushToken cur ++ tokensFrom [] cs
    else tokensFrom (cur ++ [c]) cs

/-- The value of a digit character in bases up to 16, hexadecimal letters in either case. -/
def digitValue (c : Char) : Option Nat :=
  let n := c.toNat
  if 48 ≤ n ∧ n ≤ 57 then some (n - 48)            -- '0' to '9'
  else if 65 ≤ n ∧ n ≤ 70 then some (n - 55)       -- 'A' to 'F'
  else if 97 ≤ n ∧ n ≤ 102 then some (n - 87)      -- 'a' to 'f'
  else none

/-- The value of a digit string in a base, after the value `sofar`. -/
def digitsValue (base sofar : Nat) : List Char → Option Nat
  | [] => some sofar
  | c :: cs =>
    match digitValue c with
    | none => none
    | some d => if d < base then digitsValue base (sofar * base + d) cs else none

/-- At least one digit. -/
def numberIn (base : Nat) (cs : List Char) : Option Nat :=
  if cs = [] then none else digitsValue base 0 cs

/-- An unsigned integer in hexadecimal (`0x36`), binary (`0b00110110`) or decimal (`54`) (R49). -/
def parseNumber : List Char → Option Nat
  | '0' :: 'x' :: cs => numberIn 16 cs
  | '0' :: 'b' :: cs => numberIn 2 cs
  | cs => numberIn 10 cs

/-- An operand below a bound: `<imm8>` below 256, `<imm10>` below 1024 (R49, R50, R52). -/
def parseOperand (bound : Nat) (tok : List Char) : Except AsmReason Nat :=
  match parseNumber tok with
  | none => .error .notANumber
  | some n => if n < bound then .ok n else .error .outOfRange

/-- The word of `update` for a number (R49). -/
def updateWord (n : Nat) : CmdWord := encode (.update (BitVec.ofNat 8 n))

/-- The operands of `crc` after its first: each a comma and an `<imm8>` (R51). -/
def crcTail : List (List Char) → Except AsmReason (List CmdWord)
  | [] => .ok []
  | [_] => .error .malformedList
  | sep :: tok :: rest =>
    if sep = [','] then
      match parseOperand 256 tok with
      | .error r => .error r
      | .ok n =>
        match crcTail rest with
        | .error r => .error r
        | .ok ws => .ok (updateWord n :: ws)
    else .error .malformedList

/-- The operands of `crc`: none, or a comma-separated list (R51). -/
def crcOperands : List (List Char) → Except AsmReason (List CmdWord)
  | [] => .ok []
  | tok :: rest =>
    match parseOperand 256 tok with
    | .error r => .error r
    | .ok n =>
      match crcTail rest with
      | .error r => .error r
      | .ok ws => .ok (updateWord n :: ws)

/-- A mnemonic stands in lower or in upper case (R49; not in a mixture: log entry 10). -/
def isMnemonic (lower upper tok : List Char) : Bool := tok == lower || tok == upper

/-- A mnemonic that takes no operand (R52). -/
def noOperand (w : CmdWord) (operands : List (List Char)) : Except AsmReason (List CmdWord) :=
  if operands = [] then .ok [w] else .error .unexpectedOperand

/-- A mnemonic or directive that takes exactly one operand (R52). -/
def oneOperand (bound : Nat) (word : Nat → CmdWord) : List (List Char) → Except AsmReason (List CmdWord)
  | [] => .error .missingOperand
  | [tok] =>
    match parseOperand bound tok with
    | .error r => .error r
    | .ok n => .ok [word n]
  | _ :: _ :: _ => .error .tooManyOperands

/-- The words of a line's tokens: the syntax table of R49, `.cmd` (R50) and `crc` (R51). -/
def assembleTokens : List (List Char) → Except AsmReason (List CmdWord)
  | [] => .ok []
  | m :: operands =>
    if isMnemonic "nop".toList "NOP".toList m then noOperand (encode .nop) operands
    else if isMnemonic "init".toList "INIT".toList m then noOperand (encode .init) operands
    else if isMnemonic "update".toList "UPDATE".toList m then oneOperand 256 updateWord operands
    else if m = ".cmd".toList then oneOperand 1024 (fun n => BitVec.ofNat 10 n) operands
    else if isMnemonic "crc".toList "CRC".toList m then
      match crcOperands operands with
      | .error r => .error r
      | .ok ws => .ok (encode .init :: ws)
    else .error .unknownMnemonic

/-- The words one line emits. -/
def assembleLine (line : List Char) : Except AsmReason (List CmdWord) :=
  assembleTokens (tokensFrom [] (stripComment line))

/-- The lines of a text. `cur` is the line being read. -/
def linesFrom (cur : List Char) : List Char → List (List Char)
  | [] => [cur]
  | c :: cs => if c = '\n' then cur :: linesFrom [] cs else linesFrom (cur ++ [c]) cs

/-- Assembles lines in order, the first being line number `n`, each line counting as one (log entry 16): all their words, or the
first refusal (R49, R52; log entry 12). -/
def assembleLines (n : Nat) : List (List Char) → Except AsmRefusal (List CmdWord)
  | [] => .ok []
  | l :: ls =>
    match assembleLine l with
    | .error r => .error { line := n, reason := r }
    | .ok ws =>
      match assembleLines (n + 1) ls with
      | .error e => .error e
      | .ok ws' => .ok (ws ++ ws')

/-- One command per line (R49). The lines are counted from 1, those that emit no word too (DESIGN CHOICE, log entry 16). -/
def assemble (text : List Char) : Except AsmRefusal (List CmdWord) := assembleLines 1 (linesFrom [] text)

def assembleText (text : String) : Except AsmRefusal (List CmdWord) := assemble text.toList

/-- The character of a digit below 16, letters in upper case as the spec writes them (R8). -/
def digitChar (d : Nat) : Char := if d < 10 then Char.ofNat (48 + d) else Char.ofNat (55 + d)

/-- The low `k` digits of a number in a base, the most significant first. -/
def digitsOf (base : Nat) : Nat → Nat → List Char
  | 0, _ => []
  | k + 1, n => digitsOf base k (n / base) ++ [digitChar (n % base)]

/-- A byte in decimal, without leading zeros. -/
def decimalText (b : Byte) : List Char :=
  digitsOf 10 (if b.toNat < 10 then 1 else if b.toNat < 100 then 2 else 3) b.toNat

/-- A byte in hexadecimal, two digits (R8). -/
def hexText (b : Byte) : List Char := '0' :: 'x' :: digitsOf 16 2 b.toNat

/-- A byte in binary, eight digits. -/
def binaryText (b : Byte) : List Char := '0' :: 'b' :: digitsOf 2 8 b.toNat

/-- A command's assembly line, as the programs of 95_test_vectors.md write it. -/
def render : Instr → List Char
  | .nop => "nop".toList
  | .init => "init".toList
  | .update b => "update ".toList ++ hexText b

/-- The tokens of `crc`'s operands: the operands with a comma token between each two (R51). -/
def commaTokens : List (List Char) → List (List Char)
  | [] => []
  | [tok] => [tok]
  | tok :: next :: toks => tok :: [','] :: commaTokens (next :: toks)

/-- The text of `crc`'s operands, with a comma and a space between each two, as R51 writes it. -/
def joinOperands : List (List Char) → List Char
  | [] => []
  | [tok] => tok
  | tok :: next :: toks => tok ++ ", ".toList ++ joinOperands (next :: toks)

/-- The `crc` pseudo-instruction of a byte list, in hexadecimal (R51). -/
def renderCrc (bs : List Byte) : List Char := "crc ".toList ++ joinOperands (bs.map hexText)

/-- A text of lines: a line feed between each two (log entry 9). -/
def joinLines : List (List Char) → List Char
  | [] => []
  | [line] => line
  | line :: next :: lines => line ++ '\n' :: joinLines (next :: lines)

end Sys2Proof.Machine
end

