-- ==== Sys2Proof/Safety.lean ====
section
/-! DEFINITION. What a run ends in and what a good run is (R101), what holds of the block in every reachable state, and the
names the statements use. -/

namespace Sys2Proof.Machine

/-- The observation of R101: `(mode, crc_out, fault, fault_cmd)`. -/
structure Observation where
  mode     : Mode
  crcOut   : Option Word
  fault    : BitVec 2
  faultCmd : CmdWord
deriving DecidableEq, Repr

/-- The observation of a block, which takes no step (R16: sampling changes no state). Before the first reset there is none:
no output carries a specified value (R16, R79). -/
def Block.observe (b : Block) : Option Observation :=
  match b.mode with
  | .unreset => none
  | .run => some { mode := .run, crcOut := b.acc, fault := b.fault, faultCmd := b.faultCmd }
  | .faulted => some { mode := .faulted, crcOut := b.acc, fault := b.fault, faultCmd := b.faultCmd }

/-- The host has presented its last event (R101). -/
abbrev State.ended (s : State) : Prop := s.pending = []

/-- A run is good when it ends with `mode = Run` and `fault = 0b00` (R101). -/
abbrev State.goodEnd (s : State) : Prop := s.ended ∧ s.block.mode = .run ∧ s.block.fault = faultNone

/-- What every step keeps. The accumulator holds no value exactly before the first reset (R14, R26); from then on the fault
code is RESERVED_COMMAND exactly in `faulted` and NONE otherwise, so `0b10` and `0b11` never stand there (R18, R74); and in
`faulted` the recorded word is a reserved one (R19, R77). Nothing is said of `fault` and `faultCmd` before the first reset,
where they are unspecified (R26), nor of `faultCmd` while no fault is recorded (R19). -/
abbrev Block.consistent (b : Block) : Prop :=
  (b.acc = none ↔ b.mode = .unreset) ∧
  (b.mode = .run → b.fault = faultNone) ∧
  (b.mode = .faulted → b.fault = faultReservedCommand ∧ legalWord b.faultCmd = false)

/-- The host event asserts reset (R92, R93). -/
def HostEvent.isReset : HostEvent → Bool
  | .command _ => false
  | .reset => true
  | .resetWithCommand _ => true
  | .sample _ => false
  | .pause => false

/-- `n` steps of the machine. -/
def runSteps (n : Nat) (s : State) : Host.Outcome State Fault Refusal := Host.Core.run Sys2Proof.core n s

/-- The next state of an outcome, if it is one. -/
def nextState : Host.Outcome State Fault Refusal → Option State
  | .next s => some s
  | .fault _ => none
  | .refused _ => none

end Sys2Proof.Machine
end

