-- ==== Sys2Proof/Certificates/Slice0/Obligations.lean ====
section
/-! DEFINITION. The statements for the provers, each from the rules its docstring names. Statements about the block's state
hold in every state, reached or not; where one could fail in a state no run reaches, `Block.consistent` is its premise, and
that premise is itself stated to hold at reset and to be kept by every step. -/

open Sys2Proof Sys2Proof.Machine

/-! ### Encoding (30_encoding.md) -/

/-- The words of 95 V7, written out bit by bit, decode as that table says (R48). -/
def Obligations.CommandWordsDecodeAsTheSpecListsThem : Prop :=
  decode 0b0000000000#10 = .ok .nop ∧ decode 0b0100000000#10 = .ok .init ∧
  decode 0b1000000000#10 = .ok (.update 0x00#8) ∧ decode 0b1000110110#10 = .ok (.update 0x36#8) ∧
  decode 0b1011111111#10 = .ok (.update 0xFF#8) ∧
  ∀ w ∈ [0x001#10, 0x080#10, 0x0FF#10, 0x101#10, 0x1FF#10, 0x300#10, 0x3A5#10, 0x3FF#10], ∃ r, decode w = .error r

/-- R39: the two fields, as numbers; together they are the whole word. -/
def Obligations.FieldsAreTheWordsBits : Prop :=
  ∀ w : CmdWord, (opField w).toNat = w.toNat / 256 ∧ (dataField w).toNat = w.toNat % 256 ∧
    w = opField w ++ dataField w

/-- R40: of a wider bus word the block takes bits 9 down to 0, and reads that word as a command. -/
def Obligations.WiderBusWordIsItsLowTenBits : Prop :=
  ∀ nbits w : Nat, 10 ≤ nbits →
    (busWord nbits w).toNat = w % 1024 ∧
    ∀ i : Instr, decodeTableWord nbits w = some i ↔ decode (BitVec.ofNat 10 w) = .ok i

/-- R43, R44, R45: `NOP` and `INIT` are exactly one word each, `UPDATE b` exactly `0x200 or zext_10(b)`; and the same by match
and mask. -/
def Obligations.EachCommandIsExactlyItsWords : Prop :=
  ∀ w : CmdWord,
    (decode w = .ok .nop ↔ w = 0x000#10) ∧ (decode w = .ok .nop ↔ w &&& 0x3FF#10 = 0x000#10) ∧
    (decode w = .ok .init ↔ w = 0x100#10) ∧ (decode w = .ok .init ↔ w &&& 0x3FF#10 = 0x100#10) ∧
    (∀ b : Byte, decode w = .ok (.update b) ↔ w = 0x200#10 ||| b.setWidth 10) ∧
    (∀ b : Byte, decode w = .ok (.update b) ↔ w &&& 0x300#10 = 0x200#10 ∧ b = w.extractLsb' 0 8)

/-- The decoder gives back every command from the word the encoder makes of it, with its byte at every value (R42 to R45, R48). -/
def Obligations.DecodeGivesBackEveryEncodedCommand : Prop :=
  ∀ i : Instr, decode (encode i) = .ok i

/-- The other direction: a word has one meaning, and a command one word (R42 to R48). -/
def Obligations.EncodeGivesBackEveryDecodedWord : Prop :=
  ∀ (w : CmdWord) (i : Instr), decode w = .ok i → encode i = w

/-- R42: the opcode map, range by range, and the counts of legal and reserved words. -/
def Obligations.OpcodeMapRangeByRange : Prop :=
  (∀ w : CmdWord,
    (w.toNat = 0x000 → decode w = .ok .nop) ∧
    (0x001 ≤ w.toNat ∧ w.toNat ≤ 0x0FF → ∃ r, decode w = .error r) ∧
    (w.toNat = 0x100 → decode w = .ok .init) ∧
    (0x101 ≤ w.toNat ∧ w.toNat ≤ 0x1FF → ∃ r, decode w = .error r) ∧
    (0x200 ≤ w.toNat ∧ w.toNat ≤ 0x2FF → decode w = .ok (.update (BitVec.ofNat 8 (w.toNat - 0x200)))) ∧
    (0x300 ≤ w.toNat → ∃ r, decode w = .error r) ∧
    (legalWord w = true ↔ ∃ i, decode w = .ok i)) ∧
  (List.range 1024).countP (fun n => legalWord (BitVec.ofNat 10 n)) = 258 ∧
  (List.range 1024).countP (fun n => !legalWord (BitVec.ofNat 10 n)) = 766

/-- No word lies in two rows of the opcode table (R42, R47). -/
def Obligations.NoWordLiesInTwoTableRows : Prop :=
  ∀ w : CmdWord, ∀ r ∈ opcodeTable, ∀ r' ∈ opcodeTable, r.covers w = true → r'.covers w = true → r = r'

/-- R46: which words are reserved, and that each raises the RESERVED_COMMAND fault in `Run`. -/
def Obligations.ReservedWordsAreThoseOfTheRuleAndRaiseTheFault : Prop :=
  ∀ w : CmdWord,
    ((∃ r, decode w = .error r) ↔
      w.extractLsb' 8 2 = 0b11#2 ∨
      ((w.extractLsb' 8 2 = 0b00#2 ∨ w.extractLsb' 8 2 = 0b01#2) ∧ w.extractLsb' 0 8 ≠ 0x00#8)) ∧
    ∀ s : State, s.block.mode = .run → (∃ r, decode w = .error r) →
      ∃ t, presentWord w s = .next t ∧ t.block.mode = .faulted ∧ t.block.fault = 0b01#2

/-! ### Arithmetic (40_crc_ops.md sections 1 and 3, 20_memory.md section 3) -/

/-- R54: the bit step, over the numbers: halve, and XOR the polynomial in if the number was odd. -/
def Obligations.BitStepHalvesThenXorsThePolynomial : Prop :=
  (∀ a : Word,
    (a.toNat % 2 = 1 → (bitStep a).toNat = (a.toNat / 2) ^^^ 0xA001) ∧
    (a.toNat % 2 = 0 → (bitStep a).toNat = a.toNat / 2)) ∧
  bitStep 0x0000#16 = 0x0000#16 ∧ bitStep 0x0001#16 = 0xA001#16 ∧ bitStep 0x0002#16 = 0x0001#16 ∧
  bitStep 0x0003#16 = 0xA000#16 ∧ bitStep 0xFFFF#16 = 0xDFFE#16 ∧ bitStep 0x8000#16 = 0x4000#16

/-- R56: exactly eight bit steps after the XOR into the low byte, which leaves the high byte alone; with the values of its
example. -/
def Obligations.AbsorbIsEightBitStepsAfterTheXor : Prop :=
  (∀ (a : Word) (b : Byte),
    absorb a b = bitStep (bitStep (bitStep (bitStep (bitStep (bitStep (bitStep (bitStep (a ^^^ b.setWidth 16)))))))) ∧
    (a ^^^ b.setWidth 16).extractLsb' 8 8 = a.extractLsb' 8 8) ∧
  0xFFFF#16 ^^^ (0x03#8).setWidth 16 = 0xFFFC#16 ∧
  [1, 2, 3, 4, 5, 6, 7, 8].map (fun k => bitSteps k 0xFFFC#16) =
    [0x7FFE#16, 0x3FFF#16, 0xBFFE#16, 0x5FFF#16, 0x8FFE#16, 0x47FF#16, 0x83FE#16, 0x41FF#16] ∧
  absorb 0xFFFF#16 0x03#8 = 0x41FF#16

/-- The spec's own derivation (R62): the bit step is a bijection with the inverse the rule writes; `absorb` is one in the
accumulator and injective in the byte. -/
def Obligations.BitStepIsABijectionWithItsInverse : Prop :=
  (∀ y : Word, bitUnstep y = if y.getLsbD 15 then ((y ^^^ 0xA001#16) <<< 1) ||| 0x0001#16 else y <<< 1) ∧
  (∀ a : Word, bitUnstep (bitStep a) = a) ∧ (∀ y : Word, bitStep (bitUnstep y) = y) ∧
  (∀ b : Byte, Function.Bijective fun a : Word => absorb a b) ∧
  (∀ a : Word, Function.Injective fun b : Byte => absorb a b)

/-- The spec's own derivation (R67): the byte-table form, the table being the 256 values 95 V4 lists. -/
def Obligations.AbsorbEqualsTheByteTableForm : Prop :=
  crcTable.length = 256 ∧ (∀ i : Byte, tableEntry i = absorb 0x0000#16 i) ∧
  (∀ (a : Word) (b : Byte),
    absorb a b = absorbByTable a b ∧
    absorb a b = (a >>> 8) ^^^ tableEntry ((a ^^^ b.setWidth 16).extractLsb' 0 8)) ∧
  tableEntry 0x01#8 = 0xC0C1#16 ∧ tableEntry 0x80#8 = 0xA001#16

/-- The spec's own derivation (R68): the bit step and `absorb` are linear; the checksum is not. -/
def Obligations.StepAndAbsorbAreLinear : Prop :=
  (∀ a c : Word, bitStep (a ^^^ c) = bitStep a ^^^ bitStep c) ∧
  (∀ (a c : Word) (b d : Byte), absorb (a ^^^ c) (b ^^^ d) = absorb a b ^^^ absorb c d) ∧
  absorb 0x0000#16 0x00#8 = 0x0000#16 ∧
  ∃ m n : List Byte, m.length = n.length ∧ checksum (List.zipWith (· ^^^ ·) m n) ≠ checksum m ^^^ checksum n

/-- R64: the checksum starts at `0xFFFF` and absorbs the bytes in order, the last one last; with the source's two values, and
the two orders of bytes that 95 V5.12 and V5.13 list. -/
def Obligations.ChecksumAbsorbsTheBytesInOrderFromInit : Prop :=
  checksum [] = 0xFFFF#16 ∧
  (∀ (bs : List Byte) (b : Byte), checksum (bs ++ [b]) = absorb (checksum bs) b) ∧
  checksum [0x03#8, 0x04#8, 0x02#8, 0x36#8, 0x00#8, 0xDB#8] = 0x0550#16 ∧
  checksum [0x01#8, 0x02#8] = 0xE181#16 ∧ checksum [0x02#8, 0x01#8] = 0x10C1#16

/-- The spec's own derivation (R69): a message followed by its own checksum, low byte first, absorbs to zero; high byte first
it need not. -/
def Obligations.MessageWithItsChecksumLeavesZero : Prop :=
  (∀ m : List Byte,
    checksum (m ++ [(checksum m).extractLsb' 0 8, (checksum m).extractLsb' 8 8]) = 0x0000#16) ∧
  checksum [0xFF#8, 0xFF#8] = 0x0000#16 ∧
  checksum [0x03#8, 0x04#8, 0x02#8, 0x36#8, 0x00#8, 0xDB#8, 0x50#8, 0x05#8] = 0x0000#16 ∧
  ∃ m : List Byte, checksum (m ++ [(checksum m).extractLsb' 8 8, (checksum m).extractLsb' 0 8]) ≠ 0x0000#16

/-- The spec's own derivation (R70): from every accumulator, exactly one pair of bytes absorbs to zero. -/
def Obligations.CheckBytesAreUnique : Prop :=
  ∀ (a : Word) (x y : Byte),
    absorb (absorb a x) y = 0x0000#16 ↔ x = a.extractLsb' 0 8 ∧ y = a.extractLsb' 8 8

/-- The spec's own derivation (R72): the frame test of R71 is the residue test, in the checksum and on the block itself; and a
zero accumulator stays zero under zero bytes. -/
def Obligations.FramePassesExactlyWhenAllItsBytesLeaveZero : Prop :=
  (∀ f : Frame,
    (f.passes = true ↔ checksum f.payload.toList = f.check1 ++ f.check0) ∧
    (f.passes = true ↔ checksum f.bytes = 0x0000#16) ∧
    ∀ s : State, s.block.mode = .run →
      ∃ t, runSteps 9 (s.presenting (encode .init :: f.bytes.map fun b => encode (.update b))) = .next t ∧
        t.block.mode = .run ∧
        (f.passes = true ↔ t.block.output .crcOut = .crcOut (some 0x0000#16))) ∧
  ∀ n : Nat, absorbAll 0x0000#16 (List.replicate n 0x00#8) = 0x0000#16

/-- R32: the result's wire bytes, low byte first, and the value a received pair stands for. -/
def Obligations.ResultGoesOutLowByteFirst : Prop :=
  (∀ c : Word, (wireBytes c).map BitVec.toNat = [c.toNat % 256, c.toNat / 256]) ∧
  (∀ lo hi : Byte, (ofWire lo hi).toNat = 256 * hi.toNat + lo.toNat) ∧
  ∀ lo hi : Byte, wireBytes (ofWire lo hi) = [lo, hi]

/-- The spec's own derivation (R31): iteration `k` (from 0) tests a bit that turns over with input bit `k`, and that no later
input bit touches. -/
def Obligations.BitKIsConsumedByIterationK : Prop :=
  ∀ (a : Word) (b : Byte) (k : Nat), k < 8 →
    (bitSteps k (a ^^^ (b ^^^ (1#8 <<< k)).setWidth 16)).getLsbD 0 = !(bitSteps k (a ^^^ b.setWidth 16)).getLsbD 0 ∧
    ∀ j : Nat, k < j → j < 8 →
      (bitSteps k (a ^^^ (b ^^^ (1#8 <<< j)).setWidth 16)).getLsbD 0 = (bitSteps k (a ^^^ b.setWidth 16)).getLsbD 0

/-! ### The three commands (40_crc_ops.md section 2) -/

/-- R73: every command completes in `Run`, whatever the accumulator and the byte, and raises nothing. -/
def Obligations.EveryCommandCompletesInRun : Prop :=
  ∀ (i : Instr) (s : State), s.block.mode = .run →
    ∃ t, exec i s = .next t ∧ t.block.mode = .run ∧ t.block.fault = s.block.fault ∧ t.block.faultCmd = s.block.faultCmd

/-- R57: `NOP` writes no state in `Run`, and any number of `NOP` words leaves the block as it is. -/
def Obligations.NopWritesNothing : Prop :=
  encode .nop = 0x000#10 ∧
  ∀ s : State, s.block.mode = .run →
    exec .nop s = .next s ∧
    ∀ n : Nat, runSteps n (s.presenting (List.replicate n 0x000#10)) = .next { s with pending := [] }

/-- R58: `INIT` sets the accumulator to `0xFFFF` in `Run` and nothing else; what it held before does not matter; twice is once;
right after reset it changes nothing; and it does not leave `Faulted`. -/
def Obligations.InitSetsTheAccumulator : Prop :=
  encode .init = 0x100#10 ∧
  (∀ s : State, s.block.mode = .run →
    exec .init s = .next { s with block := { s.block with acc := some 0xFFFF#16 } } ∧
    ∀ a : Option Word, exec .init { s with block := { s.block with acc := a } } = exec .init s) ∧
  (∀ s t : State, exec .init s = .next t → exec .init t = .next t) ∧
  exec .init State.reset = .next State.reset ∧
  ∀ s : State, s.block.mode = .faulted → exec .init s = .next s

/-- R59: `UPDATE b` absorbs its byte into the accumulator in `Run`, for every accumulator value and every byte, and changes
nothing else; with the rule's corner values. -/
def Obligations.UpdateAbsorbsItsByte : Prop :=
  (∀ b : Byte, encode (.update b) = 0x200#10 ||| b.setWidth 10) ∧
  (∀ (s : State) (b : Byte) (a : Word), s.block.mode = .run → s.block.acc = some a →
    exec (.update b) s =
      .next { s with block := { s.block with acc := some (bitSteps 8 (a ^^^ b.setWidth 16)) } }) ∧
  absorb 0xFFFF#16 0x00#8 = 0x40BF#16 ∧ absorb 0x0000#16 0x00#8 = 0x0000#16 ∧
  absorb 0xFFFF#16 0xFF#8 = 0x00FF#16 ∧ absorb 0xFFFF#16 0x03#8 = 0x41FF#16

/-- The model's choice (log entry 5): in a state no run reaches, `Run` with no accumulator value, `UPDATE` completes and leaves
it without one. No rule of the spec is about that state. -/
def Obligations.UpdateOfNoValueKeepsNone : Prop :=
  ∀ (s : State) (b : Byte), s.block.mode = .run → s.block.acc = none → exec (.update b) s = .next s

/-- The frame of the three commands: none touches the mode, the fault fields or the host's side; `NOP` changes nothing at all,
`INIT` nothing but the accumulator, which is `0xFFFF` if it changes, `UPDATE b` nothing but the accumulator, which is the
absorbed value if it changes (R57 to R59, R78, the table of R14). -/
def Obligations.CommandsChangeOnlyTheAccumulator : Prop :=
  ∀ (i : Instr) (s t : State), exec i s = .next t →
    t.pending = s.pending ∧ t.samples = s.samples ∧ t.block.mode = s.block.mode ∧ t.block.fault = s.block.fault ∧
    t.block.faultCmd = s.block.faultCmd ∧
    (i = .nop → t = s) ∧
    (i = .init → t.block.acc = s.block.acc ∨ t.block.acc = some 0xFFFF#16) ∧
    ∀ b, i = .update b →
      t.block.acc = s.block.acc ∨ ∃ a, s.block.acc = some a ∧ t.block.acc = some (absorb a b)

/-! ### Faults and the step function (60_exceptions.md) -/

/-- R77: a reserved word in `Run` records the fault and the word, and leaves the accumulator and `crc_out` as they were. -/
def Obligations.ReservedWordFaultsPrecisely : Prop :=
  ∀ (s : State) (w : CmdWord), s.block.mode = .run → (∃ r, decode w = .error r) →
    ∃ t, presentWord w s = .next t ∧
      t = { s with block := { mode := .faulted, acc := s.block.acc, fault := 0b01#2, faultCmd := w } } ∧
      t.block.output .crcOut = s.block.output .crcOut

/-- R78: in `Faulted` every word, legal or reserved, is ignored, `INIT` among them; every step that is not a reset leaves the
block and so its outputs as they are; and only a reset leaves `Faulted`. -/
def Obligations.FaultedIgnoresEveryWordUntilReset : Prop :=
  ∀ s : State, s.block.mode = .faulted →
    (∀ i : Instr, exec i s = .next s) ∧ (∀ w : CmdWord, presentWord w s = .next s) ∧
    (∀ (w : CmdWord) (rest : List HostEvent), s.pending = .command w :: rest →
      step s = .next { s with pending := rest }) ∧
    ∀ t : State, step s = .next t →
      t.block = s.block ∨ ∃ e rest, s.pending = e :: rest ∧ e.isReset = true ∧ t.block.mode = .run

/-- R79: in `Unreset` every command word and every sample of an output is the model fault `NotReset`, with no next state; the
power-on state is such a state; and a host that resets first never meets it, whatever it does afterwards. -/
def Obligations.UnresetWordsAndSamplesAreModelFaults : Prop :=
  (∀ s : State, s.block.mode = .unreset →
    (∀ i : Instr, exec i s = .fault .notReset) ∧ (∀ w : CmdWord, presentWord w s = .fault .notReset) ∧
    (∀ o : Output, sampleOutput o s = .fault .notReset) ∧
    ∀ (e : HostEvent) (rest : List HostEvent), s.pending = e :: rest →
      (∃ w, e = .command w) ∨ (∃ o, e = .sample o) → step s = .fault .notReset) ∧
  ∀ (f : BitVec 2) (c : CmdWord) (events : List HostEvent),
    (State.powerOn f c events).block.mode = .unreset ∧ (State.powerOn f c events).block.acc = none ∧
    ∃ t, runSteps (events.length + 1) (State.powerOn f c (.reset :: events)) = .next t

/-- R80: the step of the block on a command word, case by case in the rule's order, and that a presented word does just that.
The `UPDATE` case is stated for an accumulator that holds a value, as it does in every consistent block in `Run`. -/
def Obligations.CommandStepFunction : Prop :=
  (∀ (s : State) (w : CmdWord) (rest : List HostEvent), s.pending = .command w :: rest →
    step s = presentWord w { s with pending := rest }) ∧
  ∀ (s : State) (w : CmdWord),
    (s.block.mode = .unreset → presentWord w s = .fault .notReset) ∧
    (s.block.mode = .faulted → presentWord w s = .next s) ∧
    (s.block.mode = .run →
      (decode w = .ok .nop → presentWord w s = .next s) ∧
      (decode w = .ok .init →
        presentWord w s = .next { s with block := { s.block with acc := some 0xFFFF#16 } }) ∧
      (∀ b a, decode w = .ok (.update b) → s.block.acc = some a →
        presentWord w s = .next { s with block := { s.block with acc := some (absorb a b) } }) ∧
      (∀ r, decode w = .error r →
        presentWord w s =
          .next { s with block := { s.block with mode := .faulted, fault := 0b01#2, faultCmd := w } }))

/-- When the word the host presents next decodes to a command, the step is that command's `exec` at the state in which the host
has presented it; and so it is for a word placed through the host's window (R36, R80). -/
def Obligations.StepRunsTheDecodedCommand : Prop :=
  (∀ (s : State) (w : CmdWord) (rest : List HostEvent) (i : Instr),
    s.pending = .command w :: rest → decode w = .ok i → step s = exec i { s with pending := rest }) ∧
  ∀ (s : State) (nbits w : Nat) (i : Instr),
    decodeTableWord nbits w = some i → step (s.withFetchWord nbits w) = exec i s

/-- R17: the mode changes as the rule's table lists and in no other way, and the block powers on in `Unreset`. -/
def Obligations.ModeChangesOnlyAsListed : Prop :=
  (∀ (s : State) (e : HostEvent) (rest : List HostEvent), s.pending = e :: rest →
    (e.isReset = true → ∃ t, step s = .next t ∧ t.block.mode = .run) ∧
    ∀ w, e = .command w →
      (s.block.mode = .run → (∃ i, decode w = .ok i) → ∃ t, step s = .next t ∧ t.block.mode = .run) ∧
      (s.block.mode = .run → (∃ r, decode w = .error r) → ∃ t, step s = .next t ∧ t.block.mode = .faulted) ∧
      (s.block.mode = .faulted → ∃ t, step s = .next t ∧ t.block.mode = .faulted) ∧
      (s.block.mode = .unreset → step s = .fault .notReset)) ∧
  (∀ s t : State, step s = .next t → t.block.mode ≠ s.block.mode →
    ∃ e rest, s.pending = e :: rest ∧
      ((e.isReset = true ∧ t.block.mode = .run) ∨
       (s.block.mode = .run ∧ t.block.mode = .faulted ∧ ∃ w r, e = .command w ∧ decode w = .error r))) ∧
  ∀ (f : BitVec 2) (c : CmdWord) (events : List HostEvent), (State.powerOn f c events).block.mode = .unreset

/-- The writes of the accumulator that R20 allows: `INIT` and reset write `0xFFFF`, `UPDATE` the absorbed value; nothing the
host does writes another. -/
def Obligations.AccumulatorIsWrittenOnlyByInitUpdateAndReset : Prop :=
  ∀ s t : State, step s = .next t → t.block.acc ≠ s.block.acc →
    ∃ e rest, s.pending = e :: rest ∧
      ((e.isReset = true ∧ t.block.acc = some 0xFFFF#16) ∨
       (s.block.mode = .run ∧ e = .command 0x100#10 ∧ t.block.acc = some 0xFFFF#16) ∨
       (s.block.mode = .run ∧ ∃ (b : Byte) (a : Word), e = .command (0x200#10 ||| b.setWidth 10) ∧
          s.block.acc = some a ∧ t.block.acc = some (absorb a b)))

/-- R18: the fault code is NONE or RESERVED_COMMAND and tells `Faulted` from `Run`, in a consistent block after the first reset;
no step writes another code; and only a reset clears it. -/
def Obligations.FaultCodeIsNonzeroExactlyInFaulted : Prop :=
  (∀ b : Block, b.consistent → b.mode ≠ .unreset →
    (b.fault ≠ 0b00#2 ↔ b.mode = .faulted) ∧ (b.fault = 0b00#2 ∨ b.fault = 0b01#2)) ∧
  ∀ s t : State, step s = .next t →
    (t.block.fault = s.block.fault ∨ t.block.fault = 0b00#2 ∨ t.block.fault = 0b01#2) ∧
    (s.block.fault ≠ 0b00#2 → t.block.fault = 0b00#2 → ∃ e rest, s.pending = e :: rest ∧ e.isReset = true)

/-- R19: `fault_cmd` is written only on entering `Faulted`, with the faulting word, and by reset, with `0x000`; every reset
writes `0x000`, and every entry the word. -/
def Obligations.FaultCmdIsWrittenOnlyOnFaultEntryAndReset : Prop :=
  (∀ s t : State, step s = .next t → t.block.faultCmd ≠ s.block.faultCmd →
    ∃ e rest, s.pending = e :: rest ∧
      ((e.isReset = true ∧ t.block.faultCmd = 0x000#10) ∨
       (s.block.mode = .run ∧ t.block.mode = .faulted ∧
          ∃ w r, e = .command w ∧ decode w = .error r ∧ t.block.faultCmd = w))) ∧
  (∀ (s : State) (e : HostEvent) (rest : List HostEvent), s.pending = e :: rest → e.isReset = true →
    ∃ t, step s = .next t ∧ t.block.faultCmd = 0x000#10) ∧
  ∀ s t : State, step s = .next t → s.block.mode = .run → t.block.mode = .faulted →
    ∃ w rest, s.pending = .command w :: rest ∧ t.block.faultCmd = w

/-- The invariant that every step keeps: the accumulator has a value exactly after the first reset, the fault code is the
mode's, and a recorded fault has a reserved word (R14, R18, R19, R77). -/
def Obligations.EveryStepKeepsTheBlockConsistent : Prop :=
  ∀ s t : State, s.block.consistent → step s = .next t → t.block.consistent

/-- The block is consistent right after reset, and at power-on whatever the unspecified fields hold (R26). -/
def Obligations.ResetAndPowerOnAreConsistent : Prop :=
  State.reset.block.consistent ∧
  ∀ (f : BitVec 2) (c : CmdWord) (events : List HostEvent), (State.powerOn f c events).block.consistent

/-! ### Outputs, reset and the host (10_state.md, 70_reset_and_hazards.md) -/

/-- R16, as far as it speaks of one state: the three outputs, that sampling changes nothing of the block and gives the host the
value (as often as it samples), and that in `Unreset` it is the model fault. -/
def Obligations.SamplingGivesTheFieldsAndChangesNothing : Prop :=
  ∀ (s : State) (o : Output) (rest : List HostEvent), s.pending = .sample o :: rest →
    (s.block.mode = .unreset → step s = .fault .notReset) ∧
    (s.block.mode ≠ .unreset →
      step s = .next { block := s.block, pending := rest, samples := s.samples ++
        [match o with
          | .crcOut => .crcOut s.block.acc
          | .fault => .fault s.block.fault
          | .faultCmd => .faultCmd s.block.faultCmd] })

/-- R35: commands are atomic to the outputs. A sample between two commands sees every earlier command whole and none of the
later ones, and sampling again gives the same; and where `NOP` and `INIT` are idempotent (`NopWritesNothing`,
`InitSetsTheAccumulator`), `UPDATE` is not. -/
def Obligations.SampleBetweenCommandsSeesTheEarlierOnesWhole : Prop :=
  (∀ (s t : State) (ws vs : List CmdWord) (o : Output), runSteps ws.length (s.presenting ws) = .next t →
    t.block.mode ≠ .unreset →
    runSteps (ws.length + 2)
        { s with pending := ws.map .command ++ .sample o :: .sample o :: vs.map .command } =
      .next { t with pending := vs.map .command, samples := t.samples ++ [t.block.output o, t.block.output o] }) ∧
  ∃ (s t u : State) (b : Byte), exec (.update b) s = .next t ∧ exec (.update b) t = .next u ∧ u ≠ t

/-- R92: reset in any mode leaves the four reset values and nothing of the block before it; twice is once; and `crc_out` reads
the checksum of no bytes right after it. -/
def Obligations.ResetLeavesTheResetValuesAndNoTrace : Prop :=
  (∀ (s : State) (rest : List HostEvent), s.pending = .reset :: rest →
    step s = .next { s with pending := rest
                            block := { mode := .run, acc := some 0xFFFF#16, fault := 0b00#2, faultCmd := 0x000#10 } }) ∧
  (∀ (s t u : State), resetBlock s = .next t → resetBlock t = .next u → u = t) ∧
  (∀ (b b' : Block) (s : State), resetBlock { s with block := b } = resetBlock { s with block := b' }) ∧
  ∀ s t : State, resetBlock s = .next t → t.block.output .crcOut = .crcOut (some (checksum []))

/-- R26: the values after reset, the outputs among them, and what power-on leaves: no accumulator value, and nothing that a
host can sample. -/
def Obligations.ResetAndPowerOnValues : Prop :=
  State.reset.block = { mode := .run, acc := some 0xFFFF#16, fault := 0b00#2, faultCmd := 0x000#10 } ∧
  State.reset.block.output .crcOut = .crcOut (some 0xFFFF#16) ∧ State.reset.block.output .fault = .fault 0b00#2 ∧
  State.reset.block.output .faultCmd = .faultCmd 0x000#10 ∧
  State.reset.block.acc = some (checksum []) ∧
  ∀ (f : BitVec 2) (c : CmdWord) (events : List HostEvent),
    (State.powerOn f c events).block.mode = .unreset ∧ (State.powerOn f c events).block.acc = none ∧
    ∀ o, sampleOutput o (State.powerOn f c events) = .fault .notReset

/-- What the power-on state leaves unspecified cannot be observed: two power-on states that differ only there stop alike, or go
on with the same samples, the same observation and the same events still to come (R26). -/
def Obligations.UnspecifiedPowerOnFieldsAreNotObservable : Prop :=
  ∀ (f f' : BitVec 2) (c c' : CmdWord) (events : List HostEvent) (n : Nat),
    (∀ r, runSteps n (State.powerOn f c events) = .fault r → runSteps n (State.powerOn f' c' events) = .fault r) ∧
    ∀ t, runSteps n (State.powerOn f c events) = .next t →
      ∃ t', runSteps n (State.powerOn f' c' events) = .next t' ∧ t'.samples = t.samples ∧ t'.pending = t.pending ∧
        t'.block.observe = t.block.observe

/-- Reset and a word in one step (R81, R93): the step is the reset's and the word is discarded. That such a step exists in a
transaction-level model is the model's choice (log entry 4). -/
def Obligations.ResetWinsOverAWordInTheSameStep : Prop :=
  ∀ (s : State) (w : CmdWord) (rest : List HostEvent), s.pending = .resetWithCommand w :: rest →
    step s = step { s with pending := .reset :: rest }

/-- While the host waits, or has nothing left to present, nothing of the block changes (R91); that an exhausted host is one that
waits is the model's reading (log entry 3). -/
def Obligations.WaitingChangesNothing : Prop :=
  (∀ s : State, s.pending = [] → step s = .next s) ∧
  ∀ (s : State) (rest : List HostEvent), s.pending = .pause :: rest → step s = .next { s with pending := rest }

/-! ### Sequences of commands and runs (R36, R65, R66, R101, R102) -/

/-- The spec's own derivation (R65): from `Run`, `INIT` and then `UPDATE`s, with `NOP` words anywhere, leave the checksum of
the bytes on `crc_out`, `Run` and no fault; after a reset the `UPDATE`s alone do. -/
def Obligations.CommandSequenceComputesTheChecksum : Prop :=
  (∀ (s : State) (ws : List CmdWord) (bs : List Byte), s.block.consistent → s.block.mode = .run →
    ws.filter (fun w => w != 0x000#10) = encode .init :: bs.map (fun b => encode (.update b)) →
    ∃ t, runSteps ws.length (s.presenting ws) = .next t ∧ t.block.mode = .run ∧ t.block.fault = 0b00#2 ∧
      t.block.output .crcOut = .crcOut (some (checksum bs))) ∧
  ∀ (s : State) (bs : List Byte),
    ∃ t, runSteps (bs.length + 1) (s.runOf (bs.map fun b => encode (.update b))) = .next t ∧ t.block.mode = .run ∧
      t.block.fault = 0b00#2 ∧ t.block.output .crcOut = .crcOut (some (checksum bs))

/-- The spec's own derivation (R66): the checksum in pieces, as a function, and on the block: any words but `INIT` and the
reserved ones continue from whatever the accumulator holds and change nothing else. -/
def Obligations.ChecksumMayBeFedInPieces : Prop :=
  (∀ s t : List Byte, checksum (s ++ t) = t.foldl absorb (checksum s)) ∧
  ∀ (s : State) (a : Word) (ws : List CmdWord), s.block.mode = .run → s.block.acc = some a →
    (∀ w ∈ ws, w = 0x000#10 ∨ w &&& 0x300#10 = 0x200#10) →
    runSteps ws.length (s.presenting ws) =
      .next { s with
        pending := []
        block := { s.block with
          acc := some (((ws.filter fun w => w != 0x000#10).map fun w => w.extractLsb' 0 8).foldl absorb a) } }

/-- R101: a run, a reset and then any finite sequence of words, ends with all its words presented; and if the end is good,
`crc_out` is the checksum of the bytes since the last `INIT`, or since the reset if none came. Here `before` and `after` cut
the words at the last `INIT`. -/
def Obligations.GoodRunEndsWithTheChecksumSinceTheLastInit : Prop :=
  ∀ (s : State) (ws : List CmdWord), ∃ t, runSteps (ws.length + 1) (s.runOf ws) = .next t ∧ t.ended ∧
    t.block.observe = some { mode := t.block.mode, crcOut := t.block.acc, fault := t.block.fault,
                             faultCmd := t.block.faultCmd } ∧
    (t.goodEnd ↔ t.ended ∧ t.block.mode = .run ∧ t.block.fault = 0b00#2) ∧
    (t.goodEnd → ∀ before after : List CmdWord,
      (ws = before ++ 0x100#10 :: after ∨ (ws = after ∧ before = [])) → 0x100#10 ∉ after →
      t.block.acc = some
        (((after.filter fun w => w &&& 0x300#10 == 0x200#10).map fun w => w.extractLsb' 0 8).foldl absorb 0xFFFF#16))

/-- A run is good exactly when it presents no reserved word (R42, R77, R78, R101). -/
def Obligations.RunIsGoodExactlyWhenEveryWordIsLegal : Prop :=
  ∀ (s : State) (ws : List CmdWord) (t : State), runSteps (ws.length + 1) (s.runOf ws) = .next t →
    (t.goodEnd ↔ ∀ w ∈ ws, legalWord w = true)

/-- A run with a reserved word ends in `Faulted`, with the FIRST reserved word recorded and the accumulator as the words before
it left it, whatever comes after (R77, R78). -/
def Obligations.FaultedRunKeepsTheFirstReservedWord : Prop :=
  ∀ (s : State) (good : List CmdWord) (w : CmdWord) (rest : List CmdWord),
    (∀ v ∈ good, legalWord v = true) → legalWord w = false →
    ∃ t, runSteps ((good ++ w :: rest).length + 1) (s.runOf (good ++ w :: rest)) = .next t ∧
      t.block = { mode := .faulted, acc := some (checksum (bytesAbsorbed [] good)), fault := 0b01#2, faultCmd := w }

/-- R36: commands take effect one at a time in the order issued: presenting one sequence and then another is presenting the two
joined. -/
def Obligations.SequencesOfCommandsCompose : Prop :=
  ∀ (s t : State) (vs ws : List CmdWord), runSteps vs.length (s.presenting vs) = .next t →
    runSteps (vs ++ ws).length (s.presenting (vs ++ ws)) = runSteps ws.length (t.presenting ws)

/-- The spec's own derivation (R102). No run hangs or stops: after the first reset, whatever the host does, each of its events
takes one step, and the run ends with nothing left to present (R100, R102). -/
def Obligations.EveryEventTakesOneStepAndNoRunStops : Prop :=
  ∀ s : State, s.block.mode ≠ .unreset →
    ∃ t, runSteps s.pending.length s = .next t ∧ t.ended ∧ t.block.mode ≠ .unreset

/-! ### The assembler (30_encoding.md section 3) -/

/-- From R49: the three lines of the syntax table in lower and upper case, the immediate in decimal, hexadecimal and binary; a
comment runs to the end of the line; one command a line. THE MODEL'S CHOICES in it: that a line ends at the line feed and that
a line which emits nothing may stand before more text (log entry 9), and which spellings read as a number below 256 (log
entry 11). -/
def Obligations.AssemblerFollowsTheSyntaxTable : Prop :=
  (∀ i : Instr, assembleLine (render i) = .ok [encode i]) ∧
  (∀ m ∈ ["nop".toList, "NOP".toList], assembleLine m = .ok [0x000#10]) ∧
  (∀ m ∈ ["init".toList, "INIT".toList], assembleLine m = .ok [0x100#10]) ∧
  (∀ m ∈ ["update ".toList, "UPDATE ".toList], ∀ b : Byte,
    ∀ imm ∈ [decimalText b, hexText b, binaryText b], assembleLine (m ++ imm) = .ok [0x200#10 ||| b.setWidth 10]) ∧
  (∀ m ∈ ["update".toList, "UPDATE".toList], ∀ (tok : List Char) (n : Nat), parseNumber tok = some n → n < 256 →
    assembleTokens [m, tok] = .ok [0x200#10 ||| BitVec.ofNat 10 n]) ∧
  decimalText 54#8 = "54".toList ∧ hexText 0x36#8 = "0x36".toList ∧ binaryText 0x36#8 = "0b00110110".toList ∧
  (∀ line comment : List Char, assembleLine (line ++ ';' :: comment) = assembleLine line) ∧
  ∀ (line text : List Char) (ws vs : List CmdWord), '\n' ∉ line → assembleLine line = .ok ws →
    assemble text = .ok vs → assemble (line ++ '\n' :: text) = .ok (ws ++ vs)

/-- From R50: `.cmd` emits every raw word, and nothing else in assembly emits a reserved one. THE MODEL'S CHOICE in it: which
spellings read as a number below 1024 (log entry 11). -/
def Obligations.RawDirectiveIsTheOnlyWayToAReservedWord : Prop :=
  (∀ w : CmdWord, assembleLine (".cmd 0x".toList ++ digitsOf 16 3 w.toNat) = .ok [w]) ∧
  (∀ (tok : List Char) (n : Nat), parseNumber tok = some n → n < 1024 →
    assembleTokens [".cmd".toList, tok] = .ok [BitVec.ofNat 10 n]) ∧
  ∀ (line : List Char) (ws : List CmdWord) (w : CmdWord), assembleLine line = .ok ws → w ∈ ws → legalWord w = false →
    (tokensFrom [] (stripComment line)).head? = some ".cmd".toList

/-- From R51: `crc` expands to `INIT` and then an `UPDATE` for each operand in order, with none to `INIT` alone; and in `Run` the
expansion leaves the checksum on `crc_out`. Each operand is any token that reads as a number below 256, so decimal, hexadecimal
and binary ones (R49) in any mixture; the line is the text with a comma and a space between operands, and every other line with
the same tokens. THE MODEL'S CHOICES in it: what separates tokens (log entry 9), that `CRC` is `crc` (log entry 10), and which
spellings read as a number (log entry 11). -/
def Obligations.CrcExpandsAndComputesTheChecksum : Prop :=
  (∀ m ∈ ["crc".toList, "CRC".toList], assembleLine m = .ok [0x100#10]) ∧
  (∀ m ∈ ["crc".toList, "CRC".toList], ∀ operands : List (List Char × Nat),
    (∀ x ∈ operands, parseNumber x.1 = some x.2 ∧ x.2 < 256) →
    assembleLine (m ++ ' ' :: joinOperands (operands.map Prod.fst)) =
      .ok (0x100#10 :: operands.map fun x => 0x200#10 ||| BitVec.ofNat 10 x.2) ∧
    ∀ line : List Char, tokensFrom [] (stripComment line) = m :: commaTokens (operands.map Prod.fst) →
      assembleLine line = .ok (0x100#10 :: operands.map fun x => 0x200#10 ||| BitVec.ofNat 10 x.2)) ∧
  ∀ bs : List Byte,
    assembleLine (renderCrc bs) = .ok (0x100#10 :: bs.map fun b => 0x200#10 ||| b.setWidth 10) ∧
    ∀ s : State, s.block.mode = .run →
      ∃ t, runSteps (bs.length + 1) (s.presenting (0x100#10 :: bs.map fun b => 0x200#10 ||| b.setWidth 10)) = .next t ∧
        t.block.mode = .run ∧ t.block.output .crcOut = .crcOut (some (checksum bs))

/-- From R52: what the assembler refuses, by the tokens of a line, and that the first refused line of a text refuses the text,
with its line number, and no word is emitted. THE MODEL'S CHOICES in it: where lines and tokens end (log entry 9), that a
mnemonic in mixed case and `.CMD` are unknown (log entry 10), which spellings read as a number (log entry 11), which refusal is
named where a line or a text has several (log entry 12), and that every line counts, from 1 (log entry 16). Operands with a
minus sign are `NegativeOperandsAreRefused`. -/
def Obligations.AssemblerRefusesWithTheLineNumber : Prop :=
  (∀ (m : List Char) (operands : List (List Char)),
    m ∉ ["nop".toList, "NOP".toList, "init".toList, "INIT".toList, "update".toList, "UPDATE".toList, "crc".toList,
      "CRC".toList, ".cmd".toList] → assembleTokens (m :: operands) = .error .unknownMnemonic) ∧
  (∀ m ∈ ["update".toList, "UPDATE".toList],
    assembleTokens [m] = .error .missingOperand ∧
    (∀ (x y : List Char) (more : List (List Char)), assembleTokens (m :: x :: y :: more) = .error .tooManyOperands) ∧
    ∀ (x : List Char) (n : Nat), parseNumber x = some n → 256 ≤ n → assembleTokens [m, x] = .error .outOfRange) ∧
  (∀ m ∈ ["crc".toList, "CRC".toList], ∀ (earlier : List (List Char)) (x : List Char) (n : Nat) (more : List (List Char)),
    (∀ y ∈ earlier, ∃ k, parseNumber y = some k ∧ k < 256) → parseNumber x = some n → 256 ≤ n →
    assembleTokens (m :: (earlier.flatMap fun y => [y, [',']]) ++ x :: more) = .error .outOfRange) ∧
  (∀ (x : List Char) (n : Nat), parseNumber x = some n → 1024 ≤ n →
    assembleTokens [".cmd".toList, x] = .error .outOfRange) ∧
  (∀ m ∈ ["nop".toList, "NOP".toList, "init".toList, "INIT".toList], ∀ (x : List Char) (more : List (List Char)),
    assembleTokens (m :: x :: more) = .error .unexpectedOperand) ∧
  (∀ line : List Char, assembleLine line = assembleTokens (tokensFrom [] (stripComment line))) ∧
  ∀ (before : List (List Char)) (line : List Char) (after : List (List Char)) (reason : AsmReason),
    (∀ l ∈ before, ∃ ws, assembleLine l = .ok ws) → assembleLine line = .error reason →
    assembleLines 1 (before ++ line :: after) = .error { line := before.length + 1, reason := reason } ∧
    ((∀ l ∈ before, '\n' ∉ l) → '\n' ∉ line →
      assemble (joinLines (before ++ line :: after)) = .error { line := before.length + 1, reason := reason })

/-- From R52, for operands below 0: an `<imm8>` or a `.cmd` operand that begins with a minus sign is refused, in `update`, in
`.cmd` and in any place of `crc`, and no word is emitted. R49 and R50 call both unsigned; THE MODEL'S CHOICE is the reason it
names, that the operand is no number (log entry 11). -/
def Obligations.NegativeOperandsAreRefused : Prop :=
  (∀ m ∈ ["update".toList, "UPDATE".toList, ".cmd".toList], ∀ digits : List Char,
    assembleTokens [m, '-' :: digits] = .error .notANumber) ∧
  ∀ m ∈ ["crc".toList, "CRC".toList], ∀ (earlier : List (List Char)) (digits : List Char) (more : List (List Char)),
    (∀ y ∈ earlier, ∃ k, parseNumber y = some k ∧ k < 256) →
    assembleTokens (m :: (earlier.flatMap fun y => [y, [',']]) ++ ('-' :: digits) :: more) = .error .notANumber
end

