-- ==== Sys2Proof/Laws/Decode.lean ====
section
/-! SUPPORT. The fields of a command's word, and what each verdict of the decoder says of the fields. -/

namespace Sys2Proof

theorem opField_encode_update (b : Byte) : opField (encode (.update b)) = 0b10#2 := by
  ext k hk
  have : k = 0 ∨ k = 1 := by omega
  rcases this with rfl | rfl <;> simp [opField, encode, BitVec.getElem_extractLsb']

theorem dataField_encode_update (b : Byte) : dataField (encode (.update b)) = b := by
  ext k hk
  simp [dataField, encode, show k < 10 by omega]
  have : k = 0 ∨ k = 1 ∨ k = 2 ∨ k = 3 ∨ k = 4 ∨ k = 5 ∨ k = 6 ∨ k = 7 := by omega
  rcases this with rfl | rfl | rfl | rfl | rfl | rfl | rfl | rfl <;> simp

/-- What a legal verdict says of the fields (R48). -/
theorem fields_of_decode_ok {w : CmdWord} {i : Instr} (h : decode w = .ok i) :
    (i = .nop ∧ opField w = 0b00#2 ∧ dataField w = 0x00#8) ∨ (i = .init ∧ opField w = 0b01#2 ∧ dataField w = 0x00#8) ∨
      (i = .update (dataField w) ∧ opField w = 0b10#2) := by
  unfold decode at h
  split at h
  · split at h
    · cases h; exact .inl ⟨rfl, ‹_›, ‹_›⟩
    · cases h
  · split at h
    · split at h
      · cases h; exact .inr (.inl ⟨rfl, ‹_›, ‹_›⟩)
      · cases h
    · split at h
      · cases h; exact .inr (.inr ⟨rfl, ‹_›⟩)
      · cases h

/-- A word is its two fields (R39). -/
theorem word_ext {v w : CmdWord} (ho : opField v = opField w) (hd : dataField v = dataField w) : v = w := by
  have split : ∀ x : CmdWord, (opField x ++ dataField x : BitVec 10) = x := by
    intro x
    unfold opField dataField
    rw [BitVec.extractLsb'_append_extractLsb'_eq_extractLsb' (by decide)]
    simp
  rw [← split v, ← split w, ho, hd]

end Sys2Proof
end

