-- ==== Sys2Proof/Laws/State.lean ====
section
/-! SUPPORT. The small lemmas of the state: one for each field of each update, so that no proof unfolds a record update. -/

namespace Sys2Proof.Machine

@[simp] theorem Block.writeAcc_mode (b : Block) (v : Word) : (b.writeAcc v).mode = b.mode := rfl
@[simp] theorem Block.writeAcc_acc (b : Block) (v : Word) : (b.writeAcc v).acc = some v := rfl
@[simp] theorem Block.writeAcc_fault (b : Block) (v : Word) : (b.writeAcc v).fault = b.fault := rfl
@[simp] theorem Block.writeAcc_faultCmd (b : Block) (v : Word) : (b.writeAcc v).faultCmd = b.faultCmd := rfl

@[simp] theorem Block.absorbByte_mode (b : Block) (d : Byte) : (b.absorbByte d).mode = b.mode := rfl
@[simp] theorem Block.absorbByte_acc (b : Block) (d : Byte) : (b.absorbByte d).acc = b.acc.map fun a => absorb a d := rfl
@[simp] theorem Block.absorbByte_fault (b : Block) (d : Byte) : (b.absorbByte d).fault = b.fault := rfl
@[simp] theorem Block.absorbByte_faultCmd (b : Block) (d : Byte) : (b.absorbByte d).faultCmd = b.faultCmd := rfl

@[simp] theorem Block.takeReservedCommand_mode (b : Block) (w : CmdWord) : (b.takeReservedCommand w).mode = .faulted := rfl
@[simp] theorem Block.takeReservedCommand_acc (b : Block) (w : CmdWord) : (b.takeReservedCommand w).acc = b.acc := rfl
@[simp] theorem Block.takeReservedCommand_fault (b : Block) (w : CmdWord) :
    (b.takeReservedCommand w).fault = faultReservedCommand := rfl
@[simp] theorem Block.takeReservedCommand_faultCmd (b : Block) (w : CmdWord) : (b.takeReservedCommand w).faultCmd = w := rfl

@[simp] theorem Block.afterReset_mode : Block.afterReset.mode = .run := rfl
@[simp] theorem Block.afterReset_acc : Block.afterReset.acc = some Config.accInit := rfl
@[simp] theorem Block.afterReset_fault : Block.afterReset.fault = faultNone := rfl
@[simp] theorem Block.afterReset_faultCmd : Block.afterReset.faultCmd = 0x000#10 := rfl

@[simp] theorem State.reset_block : State.reset.block = Block.afterReset := rfl
@[simp] theorem State.reset_pending : State.reset.pending = [] := rfl
@[simp] theorem State.reset_samples : State.reset.samples = [] := rfl

@[simp] theorem State.presentFirst_block (s : State) (w : CmdWord) : (s.presentFirst w).block = s.block := rfl
@[simp] theorem State.presentFirst_pending (s : State) (w : CmdWord) :
    (s.presentFirst w).pending = .command w :: s.pending := rfl
@[simp] theorem State.presentFirst_samples (s : State) (w : CmdWord) : (s.presentFirst w).samples = s.samples := rfl

@[simp] theorem State.presenting_block (s : State) (ws : List CmdWord) : (s.presenting ws).block = s.block := rfl
@[simp] theorem State.presenting_pending (s : State) (ws : List CmdWord) :
    (s.presenting ws).pending = ws.map .command := rfl
@[simp] theorem State.presenting_samples (s : State) (ws : List CmdWord) : (s.presenting ws).samples = s.samples := rfl

@[simp] theorem State.runOf_block (s : State) (ws : List CmdWord) : (s.runOf ws).block = s.block := rfl
@[simp] theorem State.runOf_pending (s : State) (ws : List CmdWord) :
    (s.runOf ws).pending = .reset :: ws.map .command := rfl
@[simp] theorem State.runOf_samples (s : State) (ws : List CmdWord) : (s.runOf ws).samples = s.samples := rfl

end Sys2Proof.Machine
end

