-- ==== Sys2Proof/Laws/Ops.lean ====
section
/-! SUPPORT. One lemma for each shared operation that says everything it can do; proofs cite these and do not unfold. -/

namespace Sys2Proof.Machine

theorem whenRunning_of_unreset {f : Block → Block} {s : State} (h : s.block.mode = .unreset) :
    whenRunning f s = .fault .notReset := by simp [whenRunning, h]

theorem whenRunning_of_faulted {f : Block → Block} {s : State} (h : s.block.mode = .faulted) :
    whenRunning f s = .next s := by simp [whenRunning, h]

theorem whenRunning_of_run {f : Block → Block} {s : State} (h : s.block.mode = .run) :
    whenRunning f s = .next { s with block := f s.block } := by simp [whenRunning, h]

/-- All that a command word can do, whatever it does in `run`. -/
theorem whenRunning_next {f : Block → Block} {s t : State} (h : whenRunning f s = .next t) :
    (s.block.mode = .faulted ∧ t = s) ∨ (s.block.mode = .run ∧ t = { s with block := f s.block }) := by
  rcases hm : s.block.mode with _ | _ | _
  · rw [whenRunning_of_unreset hm] at h; cases h
  · rw [whenRunning_of_run hm] at h; cases h; exact .inr ⟨rfl, rfl⟩
  · rw [whenRunning_of_faulted hm] at h; cases h; exact .inl ⟨rfl, rfl⟩

/-- A command word stops only before the first reset, and only with the model fault. -/
theorem whenRunning_fault {f : Block → Block} {s : State} {r : Fault} (h : whenRunning f s = .fault r) :
    s.block.mode = .unreset := by
  rcases hm : s.block.mode with _ | _ | _
  · rfl
  · rw [whenRunning_of_run hm] at h; cases h
  · rw [whenRunning_of_faulted hm] at h; cases h

theorem whenRunning_not_refused {f : Block → Block} {s : State} {r : Refusal} : whenRunning f s ≠ .refused r := by
  intro h
  rcases hm : s.block.mode with _ | _ | _
  · rw [whenRunning_of_unreset hm] at h; cases h
  · rw [whenRunning_of_run hm] at h; cases h
  · rw [whenRunning_of_faulted hm] at h; cases h

/-- All that a sample can do: the block does not change, and the host gets the output's value. -/
theorem sampleOutput_next {o : Output} {s t : State} (h : sampleOutput o s = .next t) :
    s.block.mode ≠ .unreset ∧ t = { s with samples := s.samples ++ [s.block.output o] } := by
  rcases hm : s.block.mode with _ | _ | _ <;> simp only [sampleOutput, hm] at h <;> cases h <;> exact ⟨by decide, rfl⟩

theorem sampleOutput_of_unreset {o : Output} {s : State} (h : s.block.mode = .unreset) :
    sampleOutput o s = .fault .notReset := by simp [sampleOutput, h]

theorem sampleOutput_of_reset {o : Output} {s : State} (h : s.block.mode ≠ .unreset) :
    sampleOutput o s = .next { s with samples := s.samples ++ [s.block.output o] } := by
  rcases hm : s.block.mode with _ | _ | _
  · exact absurd hm h
  · simp [sampleOutput, hm]
  · simp [sampleOutput, hm]

/-- All that a reset does (R92). -/
theorem resetBlock_next {s t : State} (h : resetBlock s = .next t) : t = { s with block := Block.afterReset } := by
  cases h; rfl

end Sys2Proof.Machine
end

