-- ==== Sys2Proof/Laws/PerInstr.lean ====
section
/-! SUPPORT. Statements about every command, one lemma for each constructor. -/

/-- The command's word lies in the row of the opcode table that stands for it, and that row is one of the table's (R42 to R45). -/
def Sys2Proof.Laws.EncodesIntoRow.Statement (i : Sys2Proof.Instr) : Prop :=
  i.row ∈ Sys2Proof.opcodeTable ∧ i.row.covers (Sys2Proof.encode i) = true

theorem Sys2Proof.Laws.EncodesIntoRow.nop : Sys2Proof.Laws.EncodesIntoRow.Statement .nop :=
  ⟨by decide, by decide⟩

theorem Sys2Proof.Laws.EncodesIntoRow.init : Sys2Proof.Laws.EncodesIntoRow.Statement .init :=
  ⟨by decide, by decide⟩

theorem Sys2Proof.Laws.EncodesIntoRow.update (b : Sys2Proof.Byte) :
    Sys2Proof.Laws.EncodesIntoRow.Statement (.update b) := by
  refine ⟨by simp [Sys2Proof.Instr.row, Sys2Proof.opcodeTable], ?_⟩
  have h : (0x200#10 ||| b.setWidth 10) &&& 0x300#10 = 0x200#10 := by
    ext k hk
    have : k = 0 ∨ k = 1 ∨ k = 2 ∨ k = 3 ∨ k = 4 ∨ k = 5 ∨ k = 6 ∨ k = 7 ∨ k = 8 ∨ k = 9 := by omega
    rcases this with rfl | rfl | rfl | rfl | rfl | rfl | rfl | rfl | rfl | rfl <;> simp
  exact beq_iff_eq.mpr h
end

