-- ==== Sys2Proof/Laws/Step.lean ====
section
/-! SUPPORT. What one step can do, said once; and the equations that unfold a run of steps. -/

namespace Sys2Proof.Machine

theorem step_of_nil {s : State} (h : s.pending = []) : step s = .next s := by
  simp [step, takeEvent, h]

theorem step_of_cons {s : State} {e : HostEvent} {rest : List HostEvent} (h : s.pending = e :: rest) :
    step s = handleEvent e { s with pending := rest } := by
  simp [step, takeEvent, h]

/-- The change of the block that a command word makes in `run` (R80). -/
def wordEffect (w : CmdWord) (b : Block) : Block :=
  match decode w with
  | .ok .nop => b
  | .ok .init => b.writeAcc Config.accInit
  | .ok (.update d) => b.absorbByte d
  | .error _ => b.takeReservedCommand w

theorem presentWord_eq (w : CmdWord) (s : State) : presentWord w s = whenRunning (wordEffect w) s := by
  unfold presentWord
  split <;> rename_i h
  · rename_i i
    cases i <;> simp only [exec, execNop, execInit, execUpdate, whenRunning, wordEffect, h]
  · simp only [reservedCommand, whenRunning, wordEffect, h]

/-- Everything one step can do when it answers a next state: the host waits; or its next event is presented, and is a reset,
a sample, a pause, a word ignored in `faulted`, or a word acting in `run`. -/
theorem step_next {s t : State} (h : step s = .next t) :
    (s.pending = [] ∧ t = s) ∨
    ∃ e rest, s.pending = e :: rest ∧
      ((e.isReset = true ∧ t = { s with block := Block.afterReset, pending := rest }) ∨
       (e = .pause ∧ t = { s with pending := rest }) ∨
       (∃ o, e = .sample o ∧ s.block.mode ≠ .unreset ∧
          t = { s with pending := rest, samples := s.samples ++ [s.block.output o] }) ∨
       (∃ w, e = .command w ∧ s.block.mode = .faulted ∧ t = { s with pending := rest }) ∨
       (∃ w, e = .command w ∧ s.block.mode = .run ∧
          t = { s with block := wordEffect w s.block, pending := rest })) := by
  cases hp : s.pending with
  | nil =>
    rw [step_of_nil hp] at h
    cases h
    exact .inl ⟨rfl, rfl⟩
  | cons e rest =>
    rw [step_of_cons hp] at h
    refine .inr ⟨e, rest, rfl, ?_⟩
    cases e with
    | command w =>
      rw [handleEvent, presentWord_eq] at h
      rcases whenRunning_next h with ⟨hm, rfl⟩ | ⟨hm, rfl⟩
      · exact .inr (.inr (.inr (.inl ⟨w, rfl, hm, rfl⟩)))
      · exact .inr (.inr (.inr (.inr ⟨w, rfl, hm, rfl⟩)))
    | reset => exact .inl ⟨rfl, resetBlock_next h⟩
    | resetWithCommand w => exact .inl ⟨rfl, resetBlock_next h⟩
    | sample o =>
      obtain ⟨hm, rfl⟩ := sampleOutput_next h
      exact .inr (.inr (.inl ⟨o, rfl, hm, rfl⟩))
    | pause => cases h; exact .inr (.inl ⟨rfl, rfl⟩)

theorem runSteps_zero (s : State) : runSteps 0 s = .next s := rfl

theorem runSteps_succ_of_next {s t : State} (n : Nat) (h : step s = .next t) : runSteps (n + 1) s = runSteps n t := by
  have : Sys2Proof.core.step s = .next t := h
  simp only [runSteps, Host.Core.run, this]
  rfl

end Sys2Proof.Machine
end

