-- ==== Sys2Proof/Laws/Run.lean ====
section
/-! SUPPORT. Runs of command words: the induction over a word sequence, packaged once. -/

namespace Sys2Proof.Machine

/-- The change of the block that a sequence of words makes after the first reset: each acts in `run` and is ignored in
`faulted` (R78, R80). -/
def wordsEffect (b : Block) (ws : List CmdWord) : Block :=
  ws.foldl (fun b w => if b.mode = .run then wordEffect w b else b) b

theorem wordsEffect_append (b : Block) (vs ws : List CmdWord) :
    wordsEffect b (vs ++ ws) = wordsEffect (wordsEffect b vs) ws := List.foldl_append

theorem wordsEffect_cons_of_run {b : Block} (w : CmdWord) (ws : List CmdWord) (h : b.mode = .run) :
    wordsEffect b (w :: ws) = wordsEffect (wordEffect w b) ws := by simp [wordsEffect, h]

theorem wordsEffect_of_faulted {b : Block} (ws : List CmdWord) (h : b.mode = .faulted) : wordsEffect b ws = b := by
  induction ws with
  | nil => rfl
  | cons w ws ih =>
    have : ¬ b.mode = .run := by simp [h]
    simpa only [wordsEffect, List.foldl_cons, if_neg this] using ih

/-- A command word never brings the block back before its first reset. -/
theorem wordEffect_reset {b : Block} (w : CmdWord) (h : b.mode = .run) : (wordEffect w b).mode ≠ .unreset := by
  unfold wordEffect
  split <;> simp [h]

/-- After the first reset the step on a command word completes. -/
theorem step_of_word {s : State} {w : CmdWord} {rest : List HostEvent} (hm : s.block.mode ≠ .unreset)
    (h : s.pending = .command w :: rest) :
    step s = .next { s with pending := rest
                            block := if s.block.mode = .run then wordEffect w s.block else s.block } := by
  rw [step_of_cons h, handleEvent, presentWord_eq]
  cases hm' : s.block.mode
  · exact absurd hm' hm
  · rw [whenRunning_of_run (by exact hm')]; simp
  · rw [whenRunning_of_faulted (by exact hm')]; simp

/-- After the first reset a sequence of words completes, word by word, and leaves the events after it to come. -/
theorem runSteps_words (ws : List CmdWord) :
    ∀ (s : State) (more : List HostEvent), s.block.mode ≠ .unreset → s.pending = ws.map .command ++ more →
      runSteps ws.length s = .next { s with pending := more, block := wordsEffect s.block ws } ∧
        (wordsEffect s.block ws).mode ≠ .unreset := by
  induction ws with
  | nil => intro s more hm h; simp at h; subst h; exact ⟨rfl, hm⟩
  | cons w ws ih =>
    intro s more hm h
    rw [List.length_cons, runSteps_succ_of_next _ (step_of_word hm h)]
    exact ih ⟨_, _, _⟩ more (by by_cases hr : s.block.mode = .run <;> simp [hr, wordEffect_reset, hm]) rfl

end Sys2Proof.Machine
end

