-- ==== Sys2Proof/Tests/Slice0.lean ====
section
/-! SUPPORT. Tests against the values of 95_test_vectors.md, the smoke tests of the checks on words, and for every obligation
with hypotheses a witness that meets them. -/

open Sys2Proof Sys2Proof.Machine

namespace Sys2Proof.Tests

/-- A block in `Run` with a given accumulator, the host having nothing to present. -/
def running (a : Word) : State :=
  { block := { mode := .run, acc := some a, fault := 0b00#2, faultCmd := 0x000#10 }, pending := [], samples := [] }

/-- A block that a word has put in `Faulted`. -/
def faultedBy (a : Word) (w : CmdWord) : State :=
  { block := { mode := .faulted, acc := some a, fault := 0b01#2, faultCmd := w }, pending := [], samples := [] }

/-- A host with given events to come. -/
def facing (s : State) (es : List HostEvent) : State := { s with pending := es }

/-! ### Words: the smoke test of each check, and decoding from words written out bit by bit (R39, R42 to R46) -/

theorem test_illformed_nop_with_data : legalWord 0b0000000001#10 = false := by decide
theorem test_illformed_init_with_data : legalWord 0b0111111111#10 = false := by decide
theorem test_illformed_op_reserved : legalWord 0b1100000000#10 = false := by decide
theorem test_wellformed_commands :
    Instr.nop.wellFormed = true ∧ Instr.init.wellFormed = true ∧ (Instr.update 0xFF#8).wellFormed = true := by decide

theorem test_decode_nop : decode 0b0000000000#10 = .ok .nop := by decide
theorem test_decode_init : decode 0b0100000000#10 = .ok .init := by decide
theorem test_decode_update : decode 0b1000110110#10 = .ok (.update 0x36#8) := by decide
theorem test_decode_nop_with_data : decode 0b0010000000#10 = .error (.nopData 0x80#8) := by decide
theorem test_decode_init_with_data : decode 0b0100000001#10 = .error (.initData 0x01#8) := by decide
theorem test_decode_op_reserved : decode 0b1110100101#10 = .error .opReserved := by decide
theorem test_decode_table_word : decodeTableWord 16 0x0236 = some (.update 0x36#8) := by decide

/-! ### The commands (95 V2, V3, V5.1, V7) -/

theorem test_nop_keeps_acc : nextState (exec .nop (running 0x1234#16)) = some (running 0x1234#16) := by decide
theorem test_init_sets_acc : nextState (exec .init (running 0x1234#16)) = some (running 0xFFFF#16) := by decide
theorem test_init_ignored_in_faulted :
    nextState (exec .init (faultedBy 0x41FF#16 0x300#10)) = some (faultedBy 0x41FF#16 0x300#10) := by decide
theorem test_update_first_fixture_byte :
    nextState (exec (.update 0x03#8) (running 0xFFFF#16)) = some (running 0x41FF#16) := by decide
theorem test_update_0x36 : nextState (exec (.update 0x36#8) (running 0x41FF#16)) = some (running 0x5681#16) := by decide
theorem test_command_before_reset : nextState (exec .nop (State.powerOn 0b00#2 0x000#10 [])) = none := by decide

/-! ### Steps (95 V7, V8, P4, P6) -/

theorem test_reserved_word_faults :
    nextState (step (facing (running 0x41FF#16) [.command 0x101#10])) = some (faultedBy 0x41FF#16 0x101#10) := by decide
theorem test_reset_recovers :
    nextState (step (facing (faultedBy 0x41FF#16 0x300#10) [.reset])) = some State.reset := by decide
theorem test_sample_gives_crc_out :
    nextState (step (facing (running 0x0550#16) [.sample .crcOut])) =
      some { running 0x0550#16 with samples := [.crcOut (some 0x0550#16)] } := by decide
theorem test_sample_before_reset : nextState (step (State.powerOn 0b10#2 0x3FF#10 [.sample .fault])) = none := by decide
theorem test_fetch_word_runs_first_after_reset :
    nextState (step (State.reset.withFetchWord 16 0x0203)) = some (running 0x41FF#16) := by decide

/-! ### Arithmetic and the checksum (95 V1, V5.2, V5.3, V5.5, V5.6, V6.1) -/

theorem test_bitStep_shift_is_logical : bitStep 0x8001#16 = 0xE001#16 := by decide
theorem test_bitUnstep : bitUnstep 0xDFFE#16 = 0xFFFF#16 := by decide
theorem test_absorb_general : absorb 0x1234#16 0x56#8 = 0xE993#16 := by decide
theorem test_absorb_by_table : absorbByTable 0x1234#16 0x56#8 = 0xE993#16 := by decide
set_option maxRecDepth 8000 in
theorem test_checksum_fixture : checksum [0x03#8, 0x04#8, 0x02#8, 0x36#8, 0x00#8, 0xDB#8] = 0x0550#16 := by decide
set_option maxRecDepth 8000 in
theorem test_checksum_check_string :
    checksum [0x31#8, 0x32#8, 0x33#8, 0x34#8, 0x35#8, 0x36#8, 0x37#8, 0x38#8, 0x39#8] = 0x4B37#16 := by decide
theorem test_wire_bytes : wireBytes 0x0550#16 = [0x50#8, 0x05#8] := by decide

/-- The frame of 95 W3, and that of W6 with one bit of byte 6 turned over. -/
def frameW3 : Frame :=
  { payload := #v[0x03#8, 0x04#8, 0x02#8, 0x36#8, 0x00#8, 0xDB#8], check0 := 0x50#8, check1 := 0x05#8 }

set_option maxRecDepth 8000 in
theorem test_frame_passes : frameW3.passes = true := by decide
set_option maxRecDepth 8000 in
theorem test_frame_with_flipped_bit_fails : Frame.passes { frameW3 with check0 := 0x51#8 } = false := by decide

/-! ### The assembler (R49 to R52) -/

theorem test_assemble_lines :
    assembleText "init\nupdate 0x36 ; a byte\n\nUPDATE 54\n.cmd 0x3FF" =
      .ok [0x100#10, 0x236#10, 0x236#10, 0x3FF#10] := by decide
theorem test_assemble_crc : assembleText "crc 3, 0b100,0x02" = .ok [0x100#10, 0x203#10, 0x204#10, 0x202#10] := by decide
theorem test_assemble_out_of_range : assembleText "nop\nupdate 256" = .error { line := 2, reason := .outOfRange } := by
  decide
theorem test_assemble_operand_on_nop : assembleText "nop 0" = .error { line := 1, reason := .unexpectedOperand } := by
  decide
theorem test_assemble_unknown : assembleText "jump" = .error { line := 1, reason := .unknownMnemonic } := by decide

/-! ### Witnesses: for each obligation with hypotheses, values that meet them, and for ranges their ends -/

theorem witness_WiderBusWordIsItsLowTenBits : 10 ≤ 10 ∧ 10 ≤ 16 ∧ (busWord 16 0xFE36).toNat = 0xFE36 % 1024 := by decide

theorem witness_EncodeGivesBackEveryDecodedWord : decode 0x2FF#10 = .ok (.update 0xFF#8) := by decide

theorem witness_OpcodeMapRangeByRange :
    decode 0x000#10 = .ok .nop ∧ decode 0x001#10 = .error (.nopData 0x01#8) ∧ decode 0x0FF#10 = .error (.nopData 0xFF#8) ∧
    decode 0x100#10 = .ok .init ∧ decode 0x101#10 = .error (.initData 0x01#8) ∧
    decode 0x1FF#10 = .error (.initData 0xFF#8) ∧ decode 0x200#10 = .ok (.update 0x00#8) ∧
    decode 0x2FF#10 = .ok (.update 0xFF#8) ∧ decode 0x300#10 = .error .opReserved ∧
    decode 0x3FF#10 = .error .opReserved := by decide

theorem witness_NoWordLiesInTwoTableRows :
    rowUpdate ∈ opcodeTable ∧ rowUpdate.covers 0x236#10 = true := by decide

theorem witness_ReservedWordsAreThoseOfTheRuleAndRaiseTheFault :
    (running 0x41FF#16).block.mode = .run ∧ ∃ r, decode 0x001#10 = .error r := ⟨rfl, _, rfl⟩

theorem witness_BitStepHalvesThenXorsThePolynomial : (0xFFFF#16).toNat % 2 = 1 ∧ (0x8000#16).toNat % 2 = 0 := by decide

theorem witness_BitKIsConsumedByIterationK : 0 < 8 ∧ 7 < 8 ∧ (0 < 1 ∧ 1 < 8) ∧ (0 < 7 ∧ 7 < 8) ∧ (6 < 7 ∧ 7 < 8) := by
  decide

set_option maxRecDepth 8000 in
theorem witness_FramePassesExactlyWhenAllItsBytesLeaveZero :
    (running 0x1234#16).block.mode = .run ∧ checksum frameW3.bytes = 0x0000#16 := by decide

theorem witness_EveryCommandCompletesInRun : State.reset.block.mode = .run := by decide

theorem witness_NopWritesNothing : (running 0x0000#16).block.mode = .run := by decide

theorem witness_InitSetsTheAccumulator :
    (running 0x1234#16).block.mode = .run ∧ exec .init (running 0x1234#16) = .next (running 0xFFFF#16) ∧
    (faultedBy 0x41FF#16 0x300#10).block.mode = .faulted := ⟨rfl, rfl, rfl⟩

theorem witness_UpdateAbsorbsItsByte :
    (running 0xFFFF#16).block.mode = .run ∧ (running 0xFFFF#16).block.acc = some 0xFFFF#16 ∧
    (running 0x0000#16).block.acc = some 0x0000#16 := by decide

/-- A state no run reaches: `Run` without an accumulator value. -/
def runningWithoutValue : State :=
  { block := { mode := .run, acc := none, fault := 0b00#2, faultCmd := 0x000#10 }, pending := [], samples := [] }

theorem witness_UpdateOfNoValueKeepsNone :
    runningWithoutValue.block.mode = .run ∧ runningWithoutValue.block.acc = none := by decide

theorem witness_CommandsChangeOnlyTheAccumulator :
    exec .nop (running 0x1234#16) = .next (running 0x1234#16) ∧ exec .init (running 0x1234#16) = .next (running 0xFFFF#16) ∧
    exec (.update 0x03#8) (running 0xFFFF#16) = .next (running 0x41FF#16) := ⟨rfl, rfl, rfl⟩

theorem witness_ReservedWordFaultsPrecisely :
    (running 0x41FF#16).block.mode = .run ∧ (∃ r, decode 0x0FF#10 = .error r) ∧ ∃ r, decode 0x3FF#10 = .error r :=
  ⟨rfl, ⟨_, rfl⟩, ⟨_, rfl⟩⟩

theorem witness_FaultedIgnoresEveryWordUntilReset :
    (faultedBy 0x41FF#16 0x300#10).block.mode = .faulted ∧
    (facing (faultedBy 0x41FF#16 0x300#10) [.command 0x100#10]).pending = .command 0x100#10 :: [] ∧
    step (facing (faultedBy 0x41FF#16 0x300#10) [.command 0x100#10]) = .next (faultedBy 0x41FF#16 0x300#10) ∧
    step (facing (faultedBy 0x41FF#16 0x300#10) [.reset]) = .next State.reset := ⟨rfl, rfl, rfl, rfl⟩

theorem witness_UnresetWordsAndSamplesAreModelFaults :
    (State.powerOn 0b11#2 0x3FF#10 [.command 0x200#10]).block.mode = .unreset ∧
    (State.powerOn 0b11#2 0x3FF#10 [.command 0x200#10]).pending = .command 0x200#10 :: [] ∧
    (State.powerOn 0b11#2 0x3FF#10 [.sample .crcOut]).pending = .sample .crcOut :: [] := by decide

theorem witness_CommandStepFunction :
    (facing (running 0x41FF#16) [.command 0x236#10]).pending = .command 0x236#10 :: [] ∧
    (State.powerOn 0b00#2 0x000#10 []).block.mode = .unreset ∧ (faultedBy 0x41FF#16 0x300#10).block.mode = .faulted ∧
    (running 0x41FF#16).block.mode = .run ∧ decode 0x000#10 = .ok .nop ∧ decode 0x100#10 = .ok .init ∧
    decode 0x236#10 = .ok (.update 0x36#8) ∧ (running 0x41FF#16).block.acc = some 0x41FF#16 ∧
    decode 0x300#10 = .error .opReserved := by decide

theorem witness_StepRunsTheDecodedCommand :
    (facing (running 0x41FF#16) [.command 0x236#10]).pending = .command 0x236#10 :: [] ∧
    decode 0x236#10 = .ok (.update 0x36#8) ∧ decodeTableWord 16 0x0236 = some (.update 0x36#8) := by decide

theorem witness_ModeChangesOnlyAsListed :
    (facing (running 0x41FF#16) [.reset]).pending = .reset :: [] ∧ HostEvent.reset.isReset = true ∧
    (running 0x41FF#16).block.mode = .run ∧ (∃ i, decode 0x236#10 = .ok i) ∧ (∃ r, decode 0x300#10 = .error r) ∧
    (faultedBy 0x41FF#16 0x300#10).block.mode = .faulted ∧ (State.powerOn 0b00#2 0x000#10 []).block.mode = .unreset ∧
    step (facing (running 0x41FF#16) [.command 0x300#10]) = .next (faultedBy 0x41FF#16 0x300#10) ∧
    (faultedBy 0x41FF#16 0x300#10).block.mode ≠ (running 0x41FF#16).block.mode :=
  ⟨rfl, rfl, rfl, ⟨_, rfl⟩, ⟨_, rfl⟩, rfl, rfl, rfl, by decide⟩

theorem witness_AccumulatorIsWrittenOnlyByInitUpdateAndReset :
    step (facing (running 0xFFFF#16) [.command 0x203#10]) = .next (running 0x41FF#16) ∧
    (running 0x41FF#16).block.acc ≠ (running 0xFFFF#16).block.acc := ⟨rfl, by decide⟩

theorem witness_FaultCodeIsNonzeroExactlyInFaulted :
    (faultedBy 0x41FF#16 0x300#10).block.consistent ∧ (faultedBy 0x41FF#16 0x300#10).block.mode ≠ .unreset ∧
    (running 0x41FF#16).block.consistent ∧ (running 0x41FF#16).block.mode ≠ .unreset ∧
    nextState (step (facing (faultedBy 0x41FF#16 0x300#10) [.reset])) = some State.reset ∧
    (faultedBy 0x41FF#16 0x300#10).block.fault ≠ 0b00#2 ∧ State.reset.block.fault = 0b00#2 := by decide

theorem witness_FaultCmdIsWrittenOnlyOnFaultEntryAndReset :
    step (facing (running 0x41FF#16) [.command 0x300#10]) = .next (faultedBy 0x41FF#16 0x300#10) ∧
    (faultedBy 0x41FF#16 0x300#10).block.faultCmd ≠ (running 0x41FF#16).block.faultCmd ∧
    (running 0x41FF#16).block.mode = .run ∧ (faultedBy 0x41FF#16 0x300#10).block.mode = .faulted ∧
    (facing (faultedBy 0x41FF#16 0x300#10) [.reset]).pending = .reset :: [] ∧ HostEvent.reset.isReset = true ∧
    (HostEvent.resetWithCommand 0x3FF#10).isReset = true :=
  ⟨rfl, by decide, rfl, rfl, rfl, rfl, rfl⟩

theorem witness_EveryStepKeepsTheBlockConsistent :
    (facing (running 0x41FF#16) [.command 0x300#10]).block.consistent ∧
    nextState (step (facing (running 0x41FF#16) [.command 0x300#10])) = some (faultedBy 0x41FF#16 0x300#10) := by decide

theorem witness_SamplingGivesTheFieldsAndChangesNothing :
    (State.powerOn 0b00#2 0x000#10 [.sample .fault]).pending = .sample .fault :: [] ∧
    (State.powerOn 0b00#2 0x000#10 [.sample .fault]).block.mode = .unreset ∧
    (facing (running 0x0550#16) [.sample .crcOut]).pending = .sample .crcOut :: [] ∧
    (facing (running 0x0550#16) [.sample .crcOut]).block.mode ≠ .unreset := by decide

theorem witness_SampleBetweenCommandsSeesTheEarlierOnesWhole :
    runSteps 2 ((running 0x0000#16).presenting [0x100#10, 0x203#10]) = .next (running 0x41FF#16) ∧
    (running 0x41FF#16).block.mode ≠ .unreset := ⟨rfl, by decide⟩

theorem witness_ResetLeavesTheResetValuesAndNoTrace :
    (facing (faultedBy 0x41FF#16 0x300#10) [.reset]).pending = .reset :: [] ∧
    resetBlock (faultedBy 0x41FF#16 0x300#10) = .next State.reset ∧ resetBlock State.reset = .next State.reset :=
  ⟨rfl, rfl, rfl⟩

theorem witness_UnspecifiedPowerOnFieldsAreNotObservable :
    runSteps 1 (State.powerOn 0b11#2 0x3FF#10 [.command 0x200#10]) = .fault .notReset ∧
    runSteps 1 (State.powerOn 0b11#2 0x3FF#10 [.reset]) = .next State.reset := ⟨rfl, rfl⟩

theorem witness_ResetWinsOverAWordInTheSameStep :
    (facing (running 0x41FF#16) [.resetWithCommand 0x236#10]).pending = .resetWithCommand 0x236#10 :: [] := by decide

theorem witness_WaitingChangesNothing :
    (running 0x41FF#16).pending = [] ∧ (facing (running 0x41FF#16) [.pause]).pending = .pause :: [] := by decide

theorem witness_CommandSequenceComputesTheChecksum :
    (running 0x1234#16).block.consistent ∧ (running 0x1234#16).block.mode = .run ∧
    [0x000#10, 0x100#10, 0x203#10, 0x000#10, 0x204#10, 0x000#10].filter (fun w => w != 0x000#10) =
      encode .init :: [0x03#8, 0x04#8].map (fun b => encode (.update b)) := by decide

theorem witness_ChecksumMayBeFedInPieces :
    (running 0x41FF#16).block.mode = .run ∧ (running 0x41FF#16).block.acc = some 0x41FF#16 ∧
    ∀ w ∈ [0x204#10, 0x000#10, 0x2FF#10, 0x200#10], w = 0x000#10 ∨ w &&& 0x300#10 = 0x200#10 := by decide

/-- A run that abandons a message at a second `INIT`, and a run with none: both ends are good. -/
theorem witness_GoodRunEndsWithTheChecksumSinceTheLastInit :
    nextState (runSteps 4 (State.reset.runOf [0x241#10, 0x100#10, 0x203#10])) = some (running 0x41FF#16) ∧
    (running 0x41FF#16).goodEnd ∧ [0x241#10, 0x100#10, 0x203#10] = [0x241#10] ++ 0x100#10 :: [0x203#10] ∧
    0x100#10 ∉ [0x203#10] ∧ nextState (runSteps 2 (State.reset.runOf [0x203#10])) = some (running 0x41FF#16) := by decide

theorem witness_RunIsGoodExactlyWhenEveryWordIsLegal :
    runSteps 2 (State.reset.runOf [0x203#10]) = .next (running 0x41FF#16) := rfl

theorem witness_FaultedRunKeepsTheFirstReservedWord :
    (∀ v ∈ [0x100#10, 0x203#10], legalWord v = true) ∧ legalWord 0x300#10 = false ∧ legalWord 0x001#10 = false := by decide

theorem witness_SequencesOfCommandsCompose :
    runSteps 2 ((running 0x0000#16).presenting [0x100#10, 0x203#10]) = .next (running 0x41FF#16) := rfl

theorem witness_EveryEventTakesOneStepAndNoRunStops : (facing (running 0x41FF#16) [.pause, .reset]).block.mode ≠ .unreset := by
  decide

theorem witness_AssemblerFollowsTheSyntaxTable :
    '\n' ∉ "init".toList ∧ assembleLine "init".toList = .ok [0x100#10] ∧ assemble "nop\n".toList = .ok [0x000#10] ∧
    parseNumber "0".toList = some 0 ∧ parseNumber "0xff".toList = some 255 ∧ parseNumber "0b11111111".toList = some 255 := by
  decide

theorem witness_RawDirectiveIsTheOnlyWayToAReservedWord :
    parseNumber "1023".toList = some 1023 ∧ assembleLine ".cmd 0x300".toList = .ok [0x300#10] ∧ 0x300#10 ∈ [0x300#10] ∧ legalWord 0x300#10 = false := by decide

theorem witness_CrcExpandsAndComputesTheChecksum :
    (∀ x ∈ [("0".toList, 0), ("0xff".toList, 255), ("0b11".toList, 3)], parseNumber x.1 = some x.2 ∧ x.2 < 256) ∧
    tokensFrom [] (stripComment "CRC 0,0xff ,0b11;x".toList) =
      "CRC".toList :: commaTokens ["0".toList, "0xff".toList, "0b11".toList] ∧
    (running 0x1234#16).block.mode = .run := by decide

theorem witness_AssemblerRefusesWithTheLineNumber :
    "Nop".toList ∉ ["nop".toList, "NOP".toList, "init".toList, "INIT".toList, "update".toList, "UPDATE".toList,
      "crc".toList, "CRC".toList, ".cmd".toList] ∧
    parseNumber "256".toList = some 256 ∧ 256 ≤ 256 ∧ parseNumber "0x400".toList = some 1024 ∧ 1024 ≤ 1024 ∧
    (∀ y ∈ [("7".toList, 7), ("255".toList, 255), ("0b1".toList, 1)], parseNumber y.1 = some y.2 ∧ y.2 < 256) ∧
    assembleLine "nop".toList = .ok [0x000#10] ∧ assembleLine "; a comment".toList = .ok [] ∧
    assembleLine "update".toList = .error .missingOperand ∧
    (∀ l ∈ ["nop".toList, "; a comment".toList, "update".toList], '\n' ∉ l) := by decide

theorem witness_NegativeOperandsAreRefused :
    "update".toList ∈ ["update".toList, "UPDATE".toList, ".cmd".toList] ∧ "CRC".toList ∈ ["crc".toList, "CRC".toList] ∧
    parseNumber "255".toList = some 255 ∧ assembleLine "update -1".toList = .error .notANumber := by decide

end Sys2Proof.Tests
end

/-! SUPPORT. What a step does to the block alone, the verdicts of the decoder that those effects turn on, and the statements
about the state's four fields (10_state.md). -/

namespace Sys2Proof

/-! ### Words and verdicts -/

/-- A legal word is the word of the command it decodes to: it has that command's two fields (R43 to R45, R48). -/
theorem encode_of_decode_ok {w : CmdWord} {i : Instr} (h : decode w = .ok i) : encode i = w := by
  rcases fields_of_decode_ok h with ⟨rfl, ho, hd⟩ | ⟨rfl, ho, hd⟩ | ⟨rfl, ho⟩
  · exact word_ext (by rw [ho]; decide) (by rw [hd]; decide)
  · exact word_ext (by rw [ho]; decide) (by rw [hd]; decide)
  · exact word_ext (by rw [opField_encode_update, ho]) (dataField_encode_update _)

theorem decode_of_opField_update {w : CmdWord} (h : opField w = 0b10#2) : decode w = .ok (.update (dataField w)) := by
  simp [decode, h]

/-- A row whose mask is all ones covers its one word only. -/
theorem eq_pattern_of_covers_of_full_mask {r : OpcodeRow} {w : CmdWord} (hm : r.mask = BitVec.allOnes 10)
    (h : r.covers w = true) : w = r.pattern := by
  have := beq_iff_eq.mp h
  rwa [hm, BitVec.and_allOnes] at this

/-- The row of `UPDATE` fixes the `op` field (R45). -/
theorem opField_of_rowUpdate_covers {w : CmdWord} (h : rowUpdate.covers w = true) : opField w = 0b10#2 := by
  have hw : w &&& 0x300#10 = 0x200#10 := beq_iff_eq.mp h
  calc opField w = opField w &&& opField 0x300#10 := (BitVec.and_allOnes (x := opField w)).symm
    _ = opField (w &&& 0x300#10) := BitVec.extractLsb'_and.symm
    _ = 0b10#2 := by rw [hw]; decide

/-- A word that some row of the opcode table covers is no reserved one (R46, R47). -/
theorem decode_ok_of_legalWord {w : CmdWord} (h : legalWord w = true) : ∃ i, decode w = .ok i := by
  obtain ⟨r, hr, hc⟩ := List.any_eq_true.mp h
  simp only [opcodeTable, List.mem_cons, List.not_mem_nil, or_false] at hr
  rcases hr with rfl | rfl | rfl
  · exact ⟨.nop, by rw [eq_pattern_of_covers_of_full_mask rfl hc]; rfl⟩
  · exact ⟨.init, by rw [eq_pattern_of_covers_of_full_mask rfl hc]; rfl⟩
  · exact ⟨_, decode_of_opField_update (opField_of_rowUpdate_covers hc)⟩

theorem legalWord_of_decode_error {w : CmdWord} {r : Reserved} (h : decode w = .error r) : legalWord w = false := by
  rw [Bool.eq_false_iff]
  intro hl
  obtain ⟨i, hi⟩ := decode_ok_of_legalWord hl
  rw [h] at hi
  cases hi

end Sys2Proof

namespace Sys2Proof.Machine

/-! ### The effect of a word, by its verdict -/

theorem wordEffect_of_nop {w : CmdWord} (b : Block) (h : decode w = .ok .nop) : wordEffect w b = b := by
  simp [wordEffect, h]

theorem wordEffect_of_init {w : CmdWord} (b : Block) (h : decode w = .ok .init) :
    wordEffect w b = b.writeAcc Config.accInit := by
  simp [wordEffect, h]

theorem wordEffect_of_update {w : CmdWord} {d : Byte} (b : Block) (h : decode w = .ok (.update d)) :
    wordEffect w b = b.absorbByte d := by
  simp [wordEffect, h]

theorem wordEffect_of_error {w : CmdWord} {r : Reserved} (b : Block) (h : decode w = .error r) :
    wordEffect w b = b.takeReservedCommand w := by
  simp [wordEffect, h]

/-- A legal word writes nothing of the block but its accumulator (R57 to R59). -/
theorem wordEffect_frame_of_ok {w : CmdWord} {i : Instr} (b : Block) (h : decode w = .ok i) :
    (wordEffect w b).mode = b.mode ∧ (wordEffect w b).fault = b.fault ∧ (wordEffect w b).faultCmd = b.faultCmd := by
  cases i with
  | nop => rw [wordEffect_of_nop b h]; exact ⟨rfl, rfl, rfl⟩
  | init => rw [wordEffect_of_init b h]; exact ⟨rfl, rfl, rfl⟩
  | update d => rw [wordEffect_of_update b h]; exact ⟨rfl, rfl, rfl⟩

/-- A word never leaves an accumulator that holds a value without one. -/
theorem wordEffect_acc_ne_none (w : CmdWord) {b : Block} (h : b.acc ≠ none) : (wordEffect w b).acc ≠ none := by
  unfold wordEffect
  split <;> simp [h]

/-! ### What one event does to the block -/

/-- All that a step can do to the block: keep it, reset it, or let a word act on it in `run`. -/
theorem step_block {s t : State} (h : step s = .next t) :
    t.block = s.block ∨
    ∃ e rest, s.pending = e :: rest ∧
      ((e.isReset = true ∧ t.block = Block.afterReset) ∨
       ∃ w, e = .command w ∧ s.block.mode = .run ∧ t.block = wordEffect w s.block) := by
  rcases step_next h with ⟨_, rfl⟩ | ⟨e, rest, hp, hcases⟩
  · exact .inl rfl
  · rcases hcases with ⟨he, rfl⟩ | ⟨_, rfl⟩ | ⟨_, _, _, rfl⟩ | ⟨_, _, _, rfl⟩ | ⟨w, he, hm, rfl⟩
    · exact .inr ⟨e, rest, hp, .inl ⟨he, rfl⟩⟩
    · exact .inl rfl
    · exact .inl rfl
    · exact .inl rfl
    · exact .inr ⟨e, rest, hp, .inr ⟨w, he, hm, rfl⟩⟩

/-- The step on a reset, with or without a word beside it (R92, R93). -/
theorem step_of_isReset {s : State} {e : HostEvent} {rest : List HostEvent} (h : s.pending = e :: rest)
    (he : e.isReset = true) : step s = .next { s with pending := rest, block := Block.afterReset } := by
  rw [step_of_cons h]
  cases e with
  | command | sample | pause => cases he
  | reset | resetWithCommand => rfl

/-- The step on a word before the first reset (R79). -/
theorem step_of_word_of_unreset {s : State} {w : CmdWord} {rest : List HostEvent} (h : s.pending = .command w :: rest)
    (hm : s.block.mode = .unreset) : step s = .fault .notReset := by
  rw [step_of_cons h, handleEvent, presentWord_eq]
  exact whenRunning_of_unreset hm

/-- The step on a word in `run` (R80). -/
theorem step_of_word_of_run {s : State} {w : CmdWord} {rest : List HostEvent} (h : s.pending = .command w :: rest)
    (hm : s.block.mode = .run) : step s = .next { s with pending := rest, block := wordEffect w s.block } := by
  rw [step_of_word (by simp [hm]) h, if_pos hm]

/-- The step on a word in `faulted` (R78). -/
theorem step_of_word_of_faulted {s : State} {w : CmdWord} {rest : List HostEvent} (h : s.pending = .command w :: rest)
    (hm : s.block.mode = .faulted) : step s = .next { s with pending := rest } := by
  rw [step_of_word (by simp [hm]) h, if_neg (by simp [hm])]

theorem exec_nop (s : State) : exec .nop s = whenRunning (fun b => b) s := rfl

theorem exec_init (s : State) : exec .init s = whenRunning (fun b => b.writeAcc Config.accInit) s := rfl

theorem exec_update (d : Byte) (s : State) : exec (.update d) s = whenRunning (fun b => b.absorbByte d) s := rfl

/-- All that a command can do when it completes. -/
theorem exec_next {i : Instr} {s t : State} (h : exec i s = .next t) :
    t = s ∨ (i = .init ∧ t = { s with block := s.block.writeAcc Config.accInit }) ∨
      ∃ d, i = .update d ∧ t = { s with block := s.block.absorbByte d } := by
  cases i with
  | nop =>
    rw [exec_nop] at h
    rcases whenRunning_next h with ⟨_, rfl⟩ | ⟨_, rfl⟩ <;> exact .inl rfl
  | init =>
    rw [exec_init] at h
    exact (whenRunning_next h).imp (·.2) fun ht => .inl ⟨rfl, ht.2⟩
  | update d =>
    rw [exec_update] at h
    exact (whenRunning_next h).imp (·.2) fun ht => .inr ⟨d, rfl, ht.2⟩

/-! ### The invariant -/

theorem consistent_afterReset : Block.afterReset.consistent := by decide

/-- A word acting in `run` keeps the block consistent: a legal one stays in `run` with the fault fields as they are, a reserved
one records the fault with itself as the word. -/
theorem wordEffect_consistent (w : CmdWord) {b : Block} (hm : b.mode = .run) (hb : b.consistent) :
    (wordEffect w b).consistent := by
  obtain ⟨hacc, hrun, _⟩ := hb
  have hval : (wordEffect w b).acc ≠ none := wordEffect_acc_ne_none w (by simp [hacc, hm])
  refine ⟨iff_of_false hval (wordEffect_reset w hm), ?_⟩
  cases hd : decode w with
  | ok i =>
    obtain ⟨hmode, hfault, _⟩ := wordEffect_frame_of_ok b hd
    simp [hmode, hfault, hm, hrun hm]
  | error r => simp [wordEffect_of_error b hd, legalWord_of_decode_error hd]

/-- Settles O36: the block is kept, reset, or changed by a word in `run`, and each leaves it consistent. -/
theorem everyStepKeepsTheBlockConsistent : Obligations.EveryStepKeepsTheBlockConsistent := by
  intro s t hs h
  rcases step_block h with hb | ⟨_, _, _, ⟨_, hb⟩ | ⟨w, _, hm, hb⟩⟩ <;> rw [hb]
  · exact hs
  · exact consistent_afterReset
  · exact wordEffect_consistent w hm hs

/-- Settles O37: both blocks are consistent by their mode and accumulator. -/
theorem resetAndPowerOnAreConsistent : Obligations.ResetAndPowerOnAreConsistent :=
  ⟨consistent_afterReset, fun f c events => by simp [Block.consistent, State.powerOn]⟩

/-! ### Who writes which field -/

/-- Settles O26: a command that completes leaves the state, or writes the accumulator alone. -/
theorem commandsChangeOnlyTheAccumulator : Obligations.CommandsChangeOnlyTheAccumulator := by
  intro i s t h
  rcases exec_next h with rfl | ⟨rfl, rfl⟩ | ⟨d, rfl, rfl⟩
  · exact ⟨rfl, rfl, rfl, rfl, rfl, fun _ => rfl, fun _ => .inl rfl, fun _ _ => .inl rfl⟩
  · exact ⟨rfl, rfl, rfl, rfl, rfl, nofun, fun _ => .inr rfl, nofun⟩
  · refine ⟨rfl, rfl, rfl, rfl, rfl, nofun, nofun, ?_⟩
    rintro _ ⟨⟩
    cases hacc : s.block.acc with
    | none => exact .inl (by simp [hacc])
    | some a => exact .inr ⟨a, rfl, by simp [hacc]⟩

/-- A step that changes the mode is a reset, or a reserved word in `run` (R17). -/
theorem step_changing_mode {s t : State} (h : step s = .next t) (hne : t.block.mode ≠ s.block.mode) :
    ∃ e rest, s.pending = e :: rest ∧
      ((e.isReset = true ∧ t.block = Block.afterReset) ∨
       ∃ w r, e = .command w ∧ decode w = .error r ∧ s.block.mode = .run ∧ t.block = s.block.takeReservedCommand w) := by
  rcases step_block h with hb | ⟨e, rest, hp, hreset | ⟨w, he, hm, hb⟩⟩
  · exact absurd (congrArg Block.mode hb) hne
  · exact ⟨e, rest, hp, .inl hreset⟩
  · cases hd : decode w with
    | ok i =>
      obtain ⟨hmode, _, _⟩ := wordEffect_frame_of_ok s.block hd
      exact absurd (hb ▸ hmode) hne
    | error r => exact ⟨e, rest, hp, .inr ⟨w, r, he, hd, hm, hb.trans (wordEffect_of_error s.block hd)⟩⟩

/-- Settles O32: the listed changes are the steps on a reset and on a word in each mode, and no other step touches the mode. -/
theorem modeChangesOnlyAsListed : Obligations.ModeChangesOnlyAsListed := by
  refine ⟨fun s e rest hp => ⟨fun he => ⟨_, step_of_isReset hp he, rfl⟩, ?_⟩, ?_, fun _ _ _ => rfl⟩
  · rintro w rfl
    refine ⟨?_, ?_, fun hm => ⟨_, step_of_word_of_faulted hp hm, hm⟩, step_of_word_of_unreset hp⟩
    · rintro hm ⟨i, hi⟩
      obtain ⟨hmode, _, _⟩ := wordEffect_frame_of_ok s.block hi
      exact ⟨_, step_of_word_of_run hp hm, hmode.trans hm⟩
    · rintro hm ⟨r, hr⟩
      exact ⟨_, step_of_word_of_run hp hm, by rw [wordEffect_of_error s.block hr]; rfl⟩
  · intro s t h hne
    obtain ⟨e, rest, hp, ⟨he, hb⟩ | ⟨w, r, he, hd, hm, hb⟩⟩ := step_changing_mode h hne
    · exact ⟨e, rest, hp, .inl ⟨he, congrArg Block.mode hb⟩⟩
    · exact ⟨e, rest, hp, .inr ⟨hm, congrArg Block.mode hb, w, r, he, hd⟩⟩

/-- Settles O33: of the events that change the block, `NOP` and a reserved word leave the accumulator, and the legal words are
those their commands encode to. -/
theorem accumulatorIsWrittenOnlyByInitUpdateAndReset : Obligations.AccumulatorIsWrittenOnlyByInitUpdateAndReset := by
  intro s t h hne
  rcases step_block h with hb | ⟨e, rest, hp, ⟨he, hb⟩ | ⟨w, he, hm, hb⟩⟩
  · exact absurd (congrArg Block.acc hb) hne
  · exact ⟨e, rest, hp, .inl ⟨he, congrArg Block.acc hb⟩⟩
  · refine ⟨e, rest, hp, .inr ?_⟩
    rw [hb] at hne ⊢
    cases hd : decode w with
    | error r => exact absurd (by simp [wordEffect_of_error s.block hd]) hne
    | ok i =>
      rw [← encode_of_decode_ok hd] at he
      cases i with
      | nop => exact absurd (by simp [wordEffect_of_nop s.block hd]) hne
      | init => exact .inl ⟨hm, he, by rw [wordEffect_of_init s.block hd]; rfl⟩
      | update d =>
        rw [wordEffect_of_update s.block hd] at hne ⊢
        cases hacc : s.block.acc with
        | none => exact absurd (by simp [hacc]) hne
        | some a => exact .inr ⟨hm, d, a, he, rfl, by simp [hacc]⟩

/-- Settles O34: the invariant ties the code to the mode; a legal word keeps the code, a reserved one writes RESERVED_COMMAND,
and only a reset writes NONE. -/
theorem faultCodeIsNonzeroExactlyInFaulted : Obligations.FaultCodeIsNonzeroExactlyInFaulted := by
  refine ⟨?_, ?_⟩
  · rintro b ⟨_, hrun, hfaulted⟩ hm
    cases hmode : b.mode with
    | unreset => exact absurd hmode hm
    | run => rw [hrun hmode]; decide
    | faulted => rw [(hfaulted hmode).1]; decide
  · intro s t h
    rcases step_block h with hb | ⟨e, rest, hp, ⟨he, hb⟩ | ⟨w, _, _, hb⟩⟩ <;> rw [hb]
    · exact ⟨.inl rfl, fun hne h0 => absurd h0 hne⟩
    · exact ⟨.inr (.inl rfl), fun _ _ => ⟨e, rest, hp, he⟩⟩
    · cases hd : decode w with
      | ok i =>
        obtain ⟨_, hfault, _⟩ := wordEffect_frame_of_ok s.block hd
        rw [hfault]
        exact ⟨.inl rfl, fun hne h0 => absurd h0 hne⟩
      | error r =>
        rw [wordEffect_of_error s.block hd]
        exact ⟨.inr (.inr rfl), fun _ h0 => absurd h0 (by simp [faultReservedCommand])⟩

/-- Settles O35: a reset writes `0x000`, a reserved word in `run` writes itself on entering `faulted`, and no other step writes
the field or enters `faulted`. -/
theorem faultCmdIsWrittenOnlyOnFaultEntryAndReset : Obligations.FaultCmdIsWrittenOnlyOnFaultEntryAndReset := by
  refine ⟨?_, fun s e rest hp he => ⟨_, step_of_isReset hp he, rfl⟩, ?_⟩
  · intro s t h hne
    rcases step_block h with hb | ⟨e, rest, hp, ⟨he, hb⟩ | ⟨w, he, hm, hb⟩⟩
    · exact absurd (congrArg Block.faultCmd hb) hne
    · exact ⟨e, rest, hp, .inl ⟨he, congrArg Block.faultCmd hb⟩⟩
    · cases hd : decode w with
      | ok i =>
        obtain ⟨_, _, hcmd⟩ := wordEffect_frame_of_ok s.block hd
        exact absurd (hb ▸ hcmd) hne
      | error r =>
        rw [wordEffect_of_error s.block hd] at hb
        exact ⟨e, rest, hp, .inr ⟨hm, congrArg Block.mode hb, w, r, he, hd, congrArg Block.faultCmd hb⟩⟩
  · intro s t h hrun hfaulted
    have hne : t.block.mode ≠ s.block.mode := by simp [hrun, hfaulted]
    obtain ⟨e, rest, hp, ⟨_, hb⟩ | ⟨w, _, rfl, _, _, hb⟩⟩ := step_changing_mode h hne
    · simp [hb] at hfaulted
    · exact ⟨w, rest, hp, congrArg Block.faultCmd hb⟩

/-! ### Sampling, and the values of R26 -/

/-- The step on a sample before the first reset (R79). -/
theorem step_of_sample_of_unreset {s : State} {o : Output} {rest : List HostEvent} (h : s.pending = .sample o :: rest)
    (hm : s.block.mode = .unreset) : step s = .fault .notReset := by
  rw [step_of_cons h, handleEvent]
  exact sampleOutput_of_unreset hm

/-- Settles O38: the step is the sample's, which in `unreset` is the model fault and otherwise reads the output's field. -/
theorem samplingGivesTheFieldsAndChangesNothing : Obligations.SamplingGivesTheFieldsAndChangesNothing := by
  intro s o rest hp
  refine ⟨step_of_sample_of_unreset hp, fun hm => ?_⟩
  rw [step_of_cons hp, handleEvent, sampleOutput_of_reset (by exact hm)]
  cases o <;> rfl

/-- Settles O41: the values are those of the two states' definitions, and a block in `unreset` cannot be sampled. -/
theorem resetAndPowerOnValues : Obligations.ResetAndPowerOnValues :=
  ⟨rfl, rfl, rfl, rfl, rfl, fun _ _ _ => ⟨rfl, rfl, fun _ => sampleOutput_of_unreset rfl⟩⟩

/-! ### Power-on: what the host cannot tell apart

Two states are alike when the host's side is the same and the blocks differ, if at all, only before the first reset. Steps keep
this, since in `unreset` an event is a model fault, a pause, or the reset that leaves nothing of the block. -/

/-- The host cannot tell the two states apart: their blocks are the same, or neither has been reset. -/
def State.alike (s s' : State) : Prop :=
  s.pending = s'.pending ∧ s.samples = s'.samples ∧
    (s.block = s'.block ∨ (s.block.mode = .unreset ∧ s'.block.mode = .unreset))

/-- Two outcomes are alike when both stop for the same reason or both go on, in states that are alike. -/
inductive OutcomesAlike : Host.Outcome State Fault Refusal → Host.Outcome State Fault Refusal → Prop
  | next {t t' : State} (h : t.alike t') : OutcomesAlike (.next t) (.next t')
  | fault (r : Fault) : OutcomesAlike (.fault r) (.fault r)
  | refused (r : Refusal) : OutcomesAlike (.refused r) (.refused r)

theorem State.alike_refl (s : State) : s.alike s := ⟨rfl, rfl, .inl rfl⟩

theorem OutcomesAlike.refl (o : Host.Outcome State Fault Refusal) : OutcomesAlike o o := by
  cases o with
  | next t => exact .next t.alike_refl
  | fault r => exact .fault r
  | refused r => exact .refused r

theorem Block.observe_of_unreset {b : Block} (h : b.mode = .unreset) : b.observe = none := by
  simp [Block.observe, h]

theorem State.alike.observe_eq {s s' : State} (h : s.alike s') : s'.block.observe = s.block.observe := by
  obtain ⟨_, _, hb | ⟨hm, hm'⟩⟩ := h
  · rw [hb]
  · rw [Block.observe_of_unreset hm, Block.observe_of_unreset hm']

/-- Before the first reset the step depends on the block's fields only by keeping them. -/
theorem step_alike_of_unreset {s s' : State} (hp : s.pending = s'.pending) (hs : s.samples = s'.samples)
    (hm : s.block.mode = .unreset) (hm' : s'.block.mode = .unreset) : OutcomesAlike (step s) (step s') := by
  cases hq : s.pending with
  | nil =>
    rw [step_of_nil hq, step_of_nil (hp ▸ hq)]
    exact .next ⟨hp, hs, .inr ⟨hm, hm'⟩⟩
  | cons e rest =>
    have hq' : s'.pending = e :: rest := hp ▸ hq
    cases e with
    | command w =>
      rw [step_of_word_of_unreset hq hm, step_of_word_of_unreset hq' hm']
      exact .fault _
    | reset | resetWithCommand =>
      rw [step_of_isReset hq rfl, step_of_isReset hq' rfl, hs]
      exact .refl _
    | sample o =>
      rw [step_of_sample_of_unreset hq hm, step_of_sample_of_unreset hq' hm']
      exact .fault _
    | pause =>
      rw [step_of_cons hq, step_of_cons hq']
      exact .next ⟨rfl, hs, .inr ⟨hm, hm'⟩⟩

theorem step_alike {s s' : State} (h : s.alike s') : OutcomesAlike (step s) (step s') := by
  obtain ⟨hp, hs, hb | ⟨hm, hm'⟩⟩ := h
  · have hss' : s = s' := by
      cases s
      cases s'
      exact (State.mk.injEq ..).mpr ⟨hb, hp, hs⟩
    exact hss' ▸ .refl _
  · exact step_alike_of_unreset hp hs hm hm'

theorem runSteps_succ_of_fault {s : State} {r : Fault} (n : Nat) (h : step s = .fault r) :
    runSteps (n + 1) s = .fault r := by
  have : Sys2Proof.core.step s = .fault r := h
  simp only [runSteps, Host.Core.run, this]
  rfl

theorem runSteps_succ_of_refused {s : State} {r : Refusal} (n : Nat) (h : step s = .refused r) :
    runSteps (n + 1) s = .refused r := by
  have : Sys2Proof.core.step s = .refused r := h
  simp only [runSteps, Host.Core.run, this]
  rfl

/-- Any number of steps from two states that are alike. -/
theorem runSteps_alike (n : Nat) {s s' : State} (h : s.alike s') : OutcomesAlike (runSteps n s) (runSteps n s') := by
  induction n generalizing s s' with
  | zero => exact .next h
  | succ n ih =>
    have hstep := step_alike h
    generalize hs : step s = o, hs' : step s' = o' at hstep
    cases hstep with
    | next ht => rw [runSteps_succ_of_next n hs, runSteps_succ_of_next n hs']; exact ih ht
    | fault r => rw [runSteps_succ_of_fault n hs, runSteps_succ_of_fault n hs']; exact .fault r
    | refused r => rw [runSteps_succ_of_refused n hs, runSteps_succ_of_refused n hs']; exact .refused r

/-- Settles O42: the two power-on states are alike, and so are the outcomes of their runs. -/
theorem unspecifiedPowerOnFieldsAreNotObservable : Obligations.UnspecifiedPowerOnFieldsAreNotObservable := by
  intro f f' c c' events n
  have hrun := runSteps_alike n
    (show (State.powerOn f c events).alike (State.powerOn f' c' events) from ⟨rfl, rfl, .inr ⟨rfl, rfl⟩⟩)
  generalize runSteps n (State.powerOn f c events) = o, runSteps n (State.powerOn f' c' events) = o' at hrun
  cases hrun with
  | next hu =>
    refine ⟨nofun, ?_⟩
    rintro _ ⟨⟩
    have ⟨hp, hs, _⟩ := hu
    exact ⟨_, rfl, hs.symm, hp.symm, hu.observe_eq⟩
  | fault r => exact ⟨fun _ h => h, nofun⟩
  | refused r => exact ⟨nofun, nofun⟩

end Sys2Proof.Machine

/-! SUPPORT. Which command a step runs, the result's bytes on the wire, and how runs of words join with what comes after them:
the statements about ordering and access (20_memory.md). -/

namespace Sys2Proof.Machine

/-! ### The word that a step presents -/

/-- A legal word is presented by running its command (R80). -/
theorem presentWord_of_decode_ok {w : CmdWord} {i : Instr} (s : State) (h : decode w = .ok i) :
    presentWord w s = exec i s := by
  simp only [presentWord, h]

theorem decode_of_decodeTableWord {nbits w : Nat} {i : Instr} (h : decodeTableWord nbits w = some i) :
    decode (busWord nbits w) = .ok i := by
  unfold decodeTableWord at h
  split at h
  · cases h; assumption
  · cases h

theorem step_of_decode_ok {s : State} {w : CmdWord} {i : Instr} {rest : List HostEvent}
    (h : s.pending = .command w :: rest) (hi : decode w = .ok i) : step s = exec i { s with pending := rest } := by
  rw [step_of_cons h, handleEvent, presentWord_of_decode_ok _ hi]

/-- Settles O31: a word from the host's window is the first event of the state it was placed in. -/
theorem stepRunsTheDecodedCommand : Obligations.StepRunsTheDecodedCommand :=
  ⟨fun _ _ _ _ => step_of_decode_ok,
    fun s nbits w _ h => step_of_decode_ok (s.presentFirst_pending (busWord nbits w)) (decode_of_decodeTableWord h)⟩

/-! ### The result on the wire -/

theorem wireBytes_toNat (c : Word) : (wireBytes c).map BitVec.toNat = [c.toNat % 256, c.toNat / 256] := by
  have hhi : c.toNat / 256 < 256 := Nat.div_lt_of_lt_mul c.isLt
  simp [wireBytes, Nat.shiftRight_eq_div_pow, Nat.mod_eq_of_lt hhi]

theorem ofWire_toNat (lo hi : Byte) : (ofWire lo hi).toNat = 256 * hi.toNat + lo.toNat := by
  rw [ofWire, BitVec.toNat_append, ← Nat.shiftLeft_add_eq_or_of_lt lo.isLt, Nat.shiftLeft_eq, Nat.mul_comm]

/-- What the serialisation sends is read back (R32). -/
theorem wireBytes_ofWire (lo hi : Byte) : wireBytes (ofWire lo hi) = [lo, hi] := by
  have hlo : lo.toNat < 256 := lo.isLt
  refine List.map_injective_iff.mpr (fun _ _ => BitVec.eq_of_toNat_eq) ?_
  rw [wireBytes_toNat, ofWire_toNat, Nat.mul_add_mod, Nat.mod_eq_of_lt hlo, Nat.mul_add_div (by decide),
    Nat.div_eq_of_lt hlo]
  rfl

/-- Settles O19: the bytes are a remainder and a quotient by 256, and putting the pair together undoes that division. -/
theorem resultGoesOutLowByteFirst : Obligations.ResultGoesOutLowByteFirst :=
  ⟨wireBytes_toNat, ofWire_toNat, wireBytes_ofWire⟩

/-! ### Runs of words, one after another -/

theorem runSteps_add_of_next {m : Nat} (n : Nat) {s t : State} (h : runSteps m s = .next t) :
    runSteps (m + n) s = runSteps n t := by
  induction m generalizing s with
  | zero => cases h; rw [Nat.zero_add]
  | succ m ih =>
    rw [Nat.succ_add]
    cases hs : step s with
    | next s' => rw [runSteps_succ_of_next _ hs] at h ⊢; exact ih h
    | fault r => rw [runSteps_succ_of_fault _ hs] at h; cases h
    | refused r => rw [runSteps_succ_of_refused _ hs] at h; cases h

/-- Before the first reset no word completes (R79). -/
theorem runSteps_words_next {s t : State} {ws : List CmdWord} (h : runSteps ws.length (s.presenting ws) = .next t) :
    ws = [] ∨ s.block.mode ≠ .unreset := by
  cases ws with
  | nil => exact .inl rfl
  | cons w ws =>
    refine .inr fun hm => ?_
    have hstep : step (s.presenting (w :: ws)) = .fault .notReset := step_of_word_of_unreset rfl hm
    rw [List.length_cons, runSteps_succ_of_fault _ hstep] at h
    cases h

/-- What a word sequence runs to does not depend on the events that come after it. -/
theorem runSteps_words_before {s t : State} {ws : List CmdWord} (more : List HostEvent)
    (h : runSteps ws.length (s.presenting ws) = .next t) :
    runSteps ws.length { s with pending := ws.map .command ++ more } = .next { t with pending := more } := by
  rcases runSteps_words_next h with rfl | hm
  · cases h; rfl
  · obtain ⟨halone, _⟩ := runSteps_words ws (s.presenting ws) [] hm (List.append_nil _).symm
    obtain ⟨hbefore, _⟩ := runSteps_words ws { s with pending := ws.map .command ++ more } more hm rfl
    rw [halone] at h
    cases h
    exact hbefore

/-- Settles O50: the first sequence runs with the second still to come, which then runs from there. -/
theorem sequencesOfCommandsCompose : Obligations.SequencesOfCommandsCompose := by
  intro s t vs ws h
  have hfirst : runSteps vs.length (s.presenting (vs ++ ws)) = .next (t.presenting ws) := by
    rw [State.presenting, List.map_append]
    exact runSteps_words_before _ h
  rw [List.length_append]
  exact runSteps_add_of_next _ hfirst

/-- The step on a sample after the first reset (R16). -/
theorem step_of_sample {s : State} {o : Output} {rest : List HostEvent} (hm : s.block.mode ≠ .unreset)
    (h : s.pending = .sample o :: rest) :
    step s = .next { s with pending := rest, samples := s.samples ++ [s.block.output o] } := by
  rw [step_of_cons h, handleEvent]
  exact sampleOutput_of_reset hm

theorem runSteps_one_of_next {s t : State} (h : step s = .next t) : runSteps 1 s = .next t :=
  runSteps_succ_of_next 0 h

/-- The second of two samples finds the block as the first did (R35). -/
theorem runSteps_two_samples {s : State} {o : Output} {rest : List HostEvent} (hm : s.block.mode ≠ .unreset)
    (h : s.pending = .sample o :: .sample o :: rest) :
    runSteps 2 s = .next { s with pending := rest, samples := s.samples ++ [s.block.output o, s.block.output o] } := by
  have hsecond := step_of_sample (s := ⟨s.block, .sample o :: rest, s.samples ++ [s.block.output o]⟩) hm rfl
  rw [runSteps_succ_of_next 1 (step_of_sample hm h), runSteps_one_of_next hsecond, List.append_assoc,
    List.singleton_append]

/-- `UPDATE` is not idempotent (R35): after reset, the byte `0x00` leaves `0x40BF` in the accumulator, and again `0xB001`. -/
theorem update_not_idempotent :
    ∃ (s t u : State) (b : Byte), exec (.update b) s = .next t ∧ exec (.update b) t = .next u ∧ u ≠ t :=
  ⟨State.reset, { State.reset with block := Block.afterReset.writeAcc 0x40BF#16 },
    { State.reset with block := Block.afterReset.writeAcc 0xB001#16 }, 0x00#8, rfl, rfl, by decide⟩

/-- Settles O39: the words run with the samples still to come, and the samples then read the state they left. -/
theorem sampleBetweenCommandsSeesTheEarlierOnesWhole : Obligations.SampleBetweenCommandsSeesTheEarlierOnesWhole := by
  refine ⟨fun s t ws vs o h hm => ?_, update_not_idempotent⟩
  rw [runSteps_add_of_next 2 (runSteps_words_before _ h)]
  exact runSteps_two_samples hm rfl

end Sys2Proof.Machine

/-! SUPPORT. The decoder and the encoder as inverses, the verdicts as rows, fields and ranges of the opcode map, and which runs
present legal words only (30_encoding.md). -/

namespace Sys2Proof

/-! ### Decode and encode -/

theorem decode_encode (i : Instr) : decode (encode i) = .ok i := by
  cases i with
  | nop => rfl
  | init => rfl
  | update b => rw [decode_of_opField_update (opField_encode_update b), dataField_encode_update]

/-- Settles O5: the word of a command has the fields that the decoder reads the command from. -/
theorem decodeGivesBackEveryEncodedCommand : Obligations.DecodeGivesBackEveryEncodedCommand :=
  decode_encode

/-- Settles O6: a legal word has the two fields of the word of its command. -/
theorem encodeGivesBackEveryDecodedWord : Obligations.EncodeGivesBackEveryDecodedWord :=
  fun _ _ => encode_of_decode_ok

/-- A command has exactly one word (R42 to R45). -/
theorem decode_eq_ok_iff {w : CmdWord} {i : Instr} : decode w = .ok i ↔ w = encode i :=
  ⟨fun h => (encode_of_decode_ok h).symm, fun h => h ▸ decode_encode i⟩

theorem decode_eq_update_iff {w : CmdWord} {b : Byte} :
    decode w = .ok (.update b) ↔ opField w = 0b10#2 ∧ b = dataField w := by
  constructor
  · intro h
    obtain rfl := decode_eq_ok_iff.mp h
    exact ⟨opField_encode_update b, (dataField_encode_update b).symm⟩
  · rintro ⟨ho, rfl⟩
    exact decode_of_opField_update ho

/-! ### The rows of the opcode table -/

/-- The row of a word's command covers the word (R43 to R45). -/
theorem row_covers_of_decode_ok {w : CmdWord} {i : Instr} (h : decode w = .ok i) :
    i.row ∈ opcodeTable ∧ i.row.covers w = true := by
  obtain rfl := decode_eq_ok_iff.mp h
  cases i with
  | nop => exact Laws.EncodesIntoRow.nop
  | init => exact Laws.EncodesIntoRow.init
  | update b => exact Laws.EncodesIntoRow.update b

/-- A word in a row of the table decodes to a command of that row. -/
theorem decode_ok_of_covers {w : CmdWord} {r : OpcodeRow} (hr : r ∈ opcodeTable) (hc : r.covers w = true) :
    ∃ i, decode w = .ok i ∧ i.row = r := by
  simp only [opcodeTable, List.mem_cons, List.not_mem_nil, or_false] at hr
  rcases hr with rfl | rfl | rfl
  · exact ⟨.nop, decode_eq_ok_iff.mpr (eq_pattern_of_covers_of_full_mask rfl hc), rfl⟩
  · exact ⟨.init, decode_eq_ok_iff.mpr (eq_pattern_of_covers_of_full_mask rfl hc), rfl⟩
  · exact ⟨_, decode_of_opField_update (opField_of_rowUpdate_covers hc), rfl⟩

theorem and_updateMask_eq_iff {w : CmdWord} : w &&& 0x300#10 = 0x200#10 ↔ opField w = 0b10#2 :=
  ⟨fun h => opField_of_rowUpdate_covers (beq_iff_eq.mpr h),
    fun h => beq_iff_eq.mp (row_covers_of_decode_ok (decode_of_opField_update h)).2⟩

/-- Settles O4: each command has one word; the masks of `NOP` and `INIT` keep the whole word, and the mask of `UPDATE` keeps
the `op` field. -/
theorem eachCommandIsExactlyItsWords : Obligations.EachCommandIsExactlyItsWords := by
  intro w
  have hfull : w &&& 0x3FF#10 = w := BitVec.and_allOnes
  rw [hfull, and_updateMask_eq_iff]
  exact ⟨decode_eq_ok_iff, decode_eq_ok_iff, decode_eq_ok_iff, decode_eq_ok_iff, fun _ => decode_eq_ok_iff,
    fun _ => decode_eq_update_iff⟩

/-- Settles O8: the row of a word is the row of the one command it decodes to. -/
theorem noWordLiesInTwoTableRows : Obligations.NoWordLiesInTwoTableRows := by
  intro w r hr r' hr' hc hc'
  obtain ⟨i, hi, rfl⟩ := decode_ok_of_covers hr hc
  obtain ⟨j, hj, rfl⟩ := decode_ok_of_covers hr' hc'
  rw [hi] at hj
  cases hj
  rfl

/-- Legal by the table and legal by the decoder are the same (R42, R48). -/
theorem legalWord_iff_decode_ok {w : CmdWord} : legalWord w = true ↔ ∃ i, decode w = .ok i :=
  ⟨decode_ok_of_legalWord, fun ⟨i, hi⟩ => List.any_eq_true.mpr ⟨i.row, row_covers_of_decode_ok hi⟩⟩

theorem legalWord_eq_false_iff_decode_error {w : CmdWord} : legalWord w = false ↔ ∃ r, decode w = .error r := by
  refine ⟨fun h => ?_, fun ⟨_, hr⟩ => legalWord_of_decode_error hr⟩
  cases hd : decode w with
  | error r => exact ⟨r, rfl⟩
  | ok i => rw [legalWord_iff_decode_ok.mpr ⟨i, hd⟩] at h; cases h

/-! ### The reserved words, by their fields -/

theorem opField_cases (w : CmdWord) :
    opField w = 0b00#2 ∨ opField w = 0b01#2 ∨ opField w = 0b10#2 ∨ opField w = 0b11#2 := by
  generalize opField w = op
  revert op
  decide

/-- R46, in the decoder's own fields. -/
theorem decode_error_iff_fields {w : CmdWord} :
    (∃ r, decode w = .error r) ↔
      opField w = 0b11#2 ∨ ((opField w = 0b00#2 ∨ opField w = 0b01#2) ∧ dataField w ≠ 0x00#8) := by
  rcases opField_cases w with ho | ho | ho | ho
  · by_cases hd : dataField w = 0x00#8 <;> simp [decode, ho, hd]
  · by_cases hd : dataField w = 0x00#8 <;> simp [decode, ho, hd]
  · simp [decode, ho]
  · simp [decode, ho]

/-- Settles O1: the legal words are written by the encoder, and the others are reserved by their fields. -/
theorem commandWordsDecodeAsTheSpecListsThem : Obligations.CommandWordsDecodeAsTheSpecListsThem := by
  refine ⟨decode_encode .nop, decode_encode .init, decode_encode (.update 0x00#8), decode_encode (.update 0x36#8),
    decode_encode (.update 0xFF#8), fun w hw => decode_error_iff_fields.mpr ?_⟩
  revert w
  decide

/-! ### The fields and the ranges, as numbers -/

theorem opField_toNat (w : CmdWord) : (opField w).toNat = w.toNat / 256 := by
  have hw : w.toNat / 256 < 4 := Nat.div_lt_of_lt_mul w.isLt
  rw [opField, BitVec.extractLsb'_toNat, Nat.shiftRight_eq_div_pow]
  exact Nat.mod_eq_of_lt hw

theorem dataField_toNat (w : CmdWord) : (dataField w).toNat = w.toNat % 256 := by
  rw [dataField, BitVec.extractLsb'_toNat, Nat.shiftRight_zero]

theorem opField_append_dataField (w : CmdWord) : opField w ++ dataField w = w := by
  rw [opField, dataField, BitVec.extractLsb'_append_extractLsb'_eq_extractLsb' (by decide)]
  exact BitVec.extractLsb'_eq_self

/-- Settles O2: the fields are quotient and remainder by 256, and adjacent slices of the word. -/
theorem fieldsAreTheWordsBits : Obligations.FieldsAreTheWordsBits :=
  fun w => ⟨opField_toNat w, dataField_toNat w, (opField_append_dataField w).symm⟩

/-- R42's reserved ranges. -/
theorem decode_error_iff_toNat {w : CmdWord} :
    (∃ r, decode w = .error r) ↔
      (0x001 ≤ w.toNat ∧ w.toNat ≤ 0x0FF) ∨ (0x101 ≤ w.toNat ∧ w.toNat ≤ 0x1FF) ∨ 0x300 ≤ w.toNat := by
  have hw : w.toNat < 1024 := w.isLt
  simp only [decode_error_iff_fields, ne_eq, ← BitVec.toNat_inj, opField_toNat, dataField_toNat, BitVec.reduceToNat]
  omega

/-- R42's legal ranges. -/
theorem legalWord_iff_toNat {w : CmdWord} :
    legalWord w = true ↔ w.toNat = 0x000 ∨ w.toNat = 0x100 ∨ (0x200 ≤ w.toNat ∧ w.toNat ≤ 0x2FF) := by
  rw [← Bool.not_eq_false, legalWord_eq_false_iff_decode_error, decode_error_iff_toNat]
  omega

theorem decode_of_update_range {w : CmdWord} (h : 0x200 ≤ w.toNat ∧ w.toNat ≤ 0x2FF) :
    decode w = .ok (.update (BitVec.ofNat 8 (w.toNat - 0x200))) := by
  refine decode_eq_update_iff.mpr ⟨BitVec.eq_of_toNat_eq ?_, BitVec.eq_of_toNat_eq ?_⟩
  · rw [opField_toNat, BitVec.toNat_ofNat]
    omega
  · rw [dataField_toNat, BitVec.toNat_ofNat]
    omega

/-- The numbers of the legal words, of the 1024 (R42). -/
theorem filter_legalWord :
    (Finset.range 1024).filter (fun n => legalWord (BitVec.ofNat 10 n) = true) =
      {0x000, 0x100} ∪ Finset.Icc 0x200 0x2FF := by
  ext n
  simp only [Finset.mem_filter, Finset.mem_range, legalWord_iff_toNat, BitVec.toNat_ofNat, Finset.mem_union,
    Finset.mem_insert, Finset.mem_singleton, Finset.mem_Icc]
  omega

theorem countP_legalWord : (List.range 1024).countP (fun n => legalWord (BitVec.ofNat 10 n)) = 258 := by
  have hcount := Nat.count_eq_card_filter_range (fun n => legalWord (BitVec.ofNat 10 n) = true) 1024
  rw [filter_legalWord] at hcount
  simpa [Nat.count] using hcount

theorem countP_reservedWord : (List.range 1024).countP (fun n => !legalWord (BitVec.ofNat 10 n)) = 766 := by
  have hall := List.length_eq_countP_add_countP (fun n => legalWord (BitVec.ofNat 10 n)) (l := List.range 1024)
  simp only [countP_legalWord, List.length_range, Bool.not_eq_true, Bool.decide_eq_false] at hall
  omega

/-- Settles O7: the ranges are the fields as numbers, and the legal ranges are counted. -/
theorem opcodeMapRangeByRange : Obligations.OpcodeMapRangeByRange :=
  ⟨fun _ => ⟨fun h => decode_eq_ok_iff.mpr (BitVec.eq_of_toNat_eq h), fun h => decode_error_iff_toNat.mpr (.inl h),
    fun h => decode_eq_ok_iff.mpr (BitVec.eq_of_toNat_eq h), fun h => decode_error_iff_toNat.mpr (.inr (.inl h)),
    decode_of_update_range, fun h => decode_error_iff_toNat.mpr (.inr (.inr h)), legalWord_iff_decode_ok⟩,
    countP_legalWord, countP_reservedWord⟩

/-! ### The word in a wider bus word -/

/-- Of at least 10 bits none that the command word takes is cut off (R40). -/
theorem busWord_eq_ofNat {nbits : Nat} (w : Nat) (h : 10 ≤ nbits) : busWord nbits w = BitVec.ofNat 10 w :=
  BitVec.eq_of_toNat_eq (by
    rw [busWord, BitVec.toNat_ofNat, BitVec.toNat_ofNat, Nat.mod_mod_of_dvd w (Nat.pow_dvd_pow 2 h)])

theorem decodeTableWord_eq_some_iff {nbits w : Nat} {i : Instr} :
    decodeTableWord nbits w = some i ↔ decode (busWord nbits w) = .ok i :=
  ⟨Machine.decode_of_decodeTableWord, fun h => by simp only [decodeTableWord, h]⟩

/-- Settles O3: the bus word is cut to the command word, which the host's window decodes. -/
theorem widerBusWordIsItsLowTenBits : Obligations.WiderBusWordIsItsLowTenBits := by
  intro nbits w h
  have hbus := busWord_eq_ofNat w h
  exact ⟨by rw [hbus, BitVec.toNat_ofNat], fun i => by rw [decodeTableWord_eq_some_iff, hbus]⟩

end Sys2Proof

namespace Sys2Proof.Machine

/-! ### Reserved and legal words in a run -/

/-- A reserved word in `run` takes the fault (R46, R77). -/
theorem presentWord_of_error {w : CmdWord} {r : Reserved} {s : State} (hm : s.block.mode = .run)
    (h : decode w = .error r) : presentWord w s = .next { s with block := s.block.takeReservedCommand w } := by
  rw [presentWord_eq, whenRunning_of_run hm, wordEffect_of_error _ h]

/-- Settles O9: the decoder's fields are the rule's bits, and the machine takes the fault on every word it refuses. -/
theorem reservedWordsAreThoseOfTheRuleAndRaiseTheFault : Obligations.ReservedWordsAreThoseOfTheRuleAndRaiseTheFault :=
  fun _ => ⟨decode_error_iff_fields, fun _ hm ⟨_, hr⟩ => ⟨_, presentWord_of_error hm hr, rfl, rfl⟩⟩

/-- From `run` with no fault recorded, a sequence of words leaves the block so exactly if each of them is legal: a legal word
keeps the mode and the fault, and after a reserved one the block stays in `faulted` (R77, R78). -/
theorem wordsEffect_good_iff (ws : List CmdWord) {b : Block} (hm : b.mode = .run) (hf : b.fault = faultNone) :
    ((wordsEffect b ws).mode = .run ∧ (wordsEffect b ws).fault = faultNone) ↔ ∀ w ∈ ws, legalWord w = true := by
  induction ws generalizing b with
  | nil => exact iff_of_true ⟨hm, hf⟩ (by simp)
  | cons w ws ih =>
    rw [wordsEffect_cons_of_run w ws hm, List.forall_mem_cons]
    cases hd : decode w with
    | ok i =>
      obtain ⟨hmode, hfault, _⟩ := wordEffect_frame_of_ok b hd
      rw [ih (hmode.trans hm) (hfault.trans hf)]
      exact (and_iff_right (legalWord_iff_decode_ok.mpr ⟨i, hd⟩)).symm
    | error r =>
      rw [wordEffect_of_error b hd, wordsEffect_of_faulted ws (Block.takeReservedCommand_mode b w),
        legalWord_of_decode_error hd]
      simp

/-- A run of R101 ends with all its words presented, the block being what they make of the one after reset. -/
theorem runSteps_runOf (s : State) (ws : List CmdWord) :
    runSteps (ws.length + 1) (s.runOf ws) =
      .next { s with pending := [], block := wordsEffect Block.afterReset ws } := by
  rw [runSteps_succ_of_next _ (step_of_isReset (s.runOf_pending ws) rfl)]
  exact (runSteps_words ws ⟨Block.afterReset, ws.map .command, s.samples⟩ [] nofun (List.append_nil _).symm).1

/-- Settles O48: the run ends in what its words make of the block after reset, which is in `run` with no fault. -/
theorem runIsGoodExactlyWhenEveryWordIsLegal : Obligations.RunIsGoodExactlyWhenEveryWordIsLegal := by
  intro s ws t h
  rw [runSteps_runOf] at h
  cases h
  exact (and_iff_right rfl).trans (wordsEffect_good_iff ws rfl rfl)

end Sys2Proof.Machine

/-! SUPPORT. The bit step and the byte absorb as linear bijections, the checksum's residue, and what the three commands and
sequences of them leave in the accumulator (40_crc_ops.md). -/

namespace Sys2Proof.Machine

/-! ### The bit step and its inverse -/

theorem bitStep_of_even {a : Word} (h : a.getLsbD 0 = false) : bitStep a = a >>> 1 := by
  rw [bitStep, h]
  exact if_neg nofun

theorem bitStep_of_odd {a : Word} (h : a.getLsbD 0 = true) : bitStep a = a >>> 1 ^^^ Config.poly := by
  rw [bitStep, h]
  exact if_pos rfl

theorem getLsbD_zero_eq_toNat (a : Word) : a.getLsbD 0 = decide (a.toNat % 2 = 1) := by
  rw [BitVec.getLsbD, Nat.testBit_zero]

theorem bitStep_toNat_of_odd {a : Word} (h : a.toNat % 2 = 1) : (bitStep a).toNat = (a.toNat / 2) ^^^ 0xA001 := by
  have hbit : a.getLsbD 0 = true := by rw [getLsbD_zero_eq_toNat, h]; rfl
  rw [bitStep_of_odd hbit, BitVec.toNat_xor, BitVec.toNat_ushiftRight, Nat.shiftRight_one]
  rfl

theorem bitStep_toNat_of_even {a : Word} (h : a.toNat % 2 = 0) : (bitStep a).toNat = a.toNat / 2 := by
  have hbit : a.getLsbD 0 = false := by rw [getLsbD_zero_eq_toNat, h]; rfl
  rw [bitStep_of_even hbit, BitVec.toNat_ushiftRight, Nat.shiftRight_one]

/-- Settles O10: the lowest bit is the parity, and the shift by one is the half. -/
theorem bitStepHalvesThenXorsThePolynomial : Obligations.BitStepHalvesThenXorsThePolynomial :=
  ⟨fun _ => ⟨bitStep_toNat_of_odd, bitStep_toNat_of_even⟩, by decide⟩

theorem bitUnstep_of_low {y : Word} (h : y.getLsbD 15 = false) : bitUnstep y = y <<< 1 := by
  rw [bitUnstep, h]
  exact if_neg nofun

theorem bitUnstep_of_high {y : Word} (h : y.getLsbD 15 = true) :
    bitUnstep y = (y ^^^ Config.poly) <<< 1 ||| 0x0001#16 := by
  rw [bitUnstep, h]
  exact if_pos rfl

/-- The one bit that a right shift discards is all that is needed to undo it. -/
theorem shift_back (a : Word) : (a >>> 1) <<< 1 ||| (if a.getLsbD 0 then 0x0001#16 else 0x0000#16) = a := by
  apply BitVec.eq_of_getLsbD_eq
  intro i hi
  cases i with
  | zero =>
    rw [BitVec.getLsbD_or, BitVec.getLsbD_shiftLeft]
    cases a.getLsbD 0 <;> rfl
  | succ i => cases a.getLsbD 0 <;> simp [hi, Nat.add_comm 1 i]

/-- The top bit of a bit step's result tells the parity of its argument: the shift leaves that bit 0, and the polynomial has it 1
(R62). -/
theorem bitUnstep_bitStep (a : Word) : bitUnstep (bitStep a) = a := by
  have hback := shift_back a
  have htop : (a >>> 1).getLsbD 15 = false := by rw [BitVec.getLsbD_ushiftRight]; exact BitVec.getLsbD_of_ge a 16 le_rfl
  cases h : a.getLsbD 0 with
  | false =>
    rw [h, if_neg nofun, BitVec.or_zero] at hback
    rw [bitStep_of_even h, bitUnstep_of_low htop, hback]
  | true =>
    rw [h, if_pos rfl] at hback
    have hxor : (a >>> 1 ^^^ Config.poly).getLsbD 15 = true := by rw [BitVec.getLsbD_xor, htop]; decide
    rw [bitStep_of_odd h, bitUnstep_of_high hxor, BitVec.xor_assoc, BitVec.xor_self, BitVec.xor_zero, hback]

theorem bitStep_bijective : Function.Bijective bitStep :=
  Finite.injective_iff_bijective.mp (Function.LeftInverse.injective bitUnstep_bitStep)

theorem bitStep_bitUnstep (y : Word) : bitStep (bitUnstep y) = y :=
  Function.LeftInverse.rightInverse_of_surjective bitUnstep_bitStep bitStep_bijective.surjective y

/-! ### Several bit steps -/

theorem bitSteps_eq_iterate (k : Nat) : bitSteps k = bitStep^[k] := by
  induction k with
  | zero => rfl
  | succ k ih => funext a; rw [bitSteps, ih]; rfl

theorem bitSteps_bijective (k : Nat) : Function.Bijective (bitSteps k) := by
  rw [bitSteps_eq_iterate]
  exact bitStep_bijective.iterate k

/-- The conditional XOR of the polynomial is linear, for two of them cancel (R68). -/
theorem bitStep_xor (a c : Word) : bitStep (a ^^^ c) = bitStep a ^^^ bitStep c := by
  have hbit := BitVec.getLsbD_xor (x := a) (y := c) (i := 0)
  have hshift := BitVec.ushiftRight_xor_distrib a c 1
  cases ha : a.getLsbD 0 <;> cases hc : c.getLsbD 0 <;> rw [ha, hc] at hbit
  · rw [bitStep_of_even hbit, bitStep_of_even ha, bitStep_of_even hc, hshift]
  · rw [bitStep_of_odd hbit, bitStep_of_even ha, bitStep_of_odd hc, hshift, BitVec.xor_assoc]
  · rw [bitStep_of_odd hbit, bitStep_of_odd ha, bitStep_of_even hc, hshift]
    ac_rfl
  · rw [bitStep_of_even hbit, bitStep_of_odd ha, bitStep_of_odd hc, hshift]
    calc a >>> 1 ^^^ c >>> 1
      _ = a >>> 1 ^^^ c >>> 1 ^^^ (Config.poly ^^^ Config.poly) := by rw [BitVec.xor_self, BitVec.xor_zero]
      _ = a >>> 1 ^^^ Config.poly ^^^ (c >>> 1 ^^^ Config.poly) := by ac_rfl

theorem bitSteps_xor (k : Nat) (a c : Word) : bitSteps k (a ^^^ c) = bitSteps k a ^^^ bitSteps k c := by
  induction k generalizing a c with
  | zero => rfl
  | succ k ih => rw [bitSteps, bitStep_xor, ih]; rfl

/-- No step on the zero bits of the low end XORs the polynomial in (the proof of R67). -/
theorem bitSteps_of_low_bits_zero (k : Nat) {x : Word} (h : ∀ i < k, x.getLsbD i = false) : bitSteps k x = x >>> k := by
  induction k generalizing x with
  | zero => exact (BitVec.ushiftRight_zero x).symm
  | succ k ih =>
    have hlow : ∀ i < k, (x >>> 1).getLsbD i = false := fun i hi => by
      rw [BitVec.getLsbD_ushiftRight]
      exact h _ (by omega)
    rw [bitSteps, bitStep_of_even (h 0 k.succ_pos), ih hlow, ← BitVec.shiftRight_add, Nat.add_comm]

/-! ### Bytes in a word -/

theorem operand_xor (b d : Byte) : operand (b ^^^ d) = operand b ^^^ operand d := BitVec.setWidth_xor

theorem operand_toNat (b : Byte) : (operand b).toNat = b.toNat := BitVec.toNat_setWidth_of_le (by decide)

theorem operand_injective : Function.Injective operand := fun b d h =>
  BitVec.eq_of_toNat_eq (by rw [← operand_toNat b, ← operand_toNat d, h])

theorem operand_high (c : Word) : operand (c.extractLsb' 8 8) = c >>> 8 := by
  have hc : c.toNat / 256 < 256 := Nat.div_lt_of_lt_mul c.isLt
  apply BitVec.eq_of_toNat_eq
  rw [operand_toNat, BitVec.extractLsb'_toNat, BitVec.toNat_ushiftRight, Nat.shiftRight_eq_div_pow]
  exact Nat.mod_eq_of_lt hc

theorem operand_shiftRight (b : Byte) : operand b >>> 8 = 0x0000#16 := by
  apply BitVec.eq_of_toNat_eq
  rw [BitVec.toNat_ushiftRight, operand_toNat, Nat.shiftRight_eq_div_pow]
  exact Nat.div_eq_of_lt b.isLt

theorem extractLsb'_high_operand (b : Byte) : (operand b).extractLsb' 8 8 = 0x00#8 :=
  operand_injective (by rw [operand_high, operand_shiftRight]; rfl)

theorem operand_shiftLeft_shiftRight (b : Byte) : operand b <<< 8 >>> 8 = operand b := by
  have hb : b.toNat < 256 := b.isLt
  apply BitVec.eq_of_toNat_eq
  rw [BitVec.toNat_ushiftRight, BitVec.toNat_shiftLeft, operand_toNat, Nat.shiftLeft_eq, Nat.shiftRight_eq_div_pow]
  omega

theorem ofWire_eq_xor (lo hi : Byte) : ofWire lo hi = operand hi <<< 8 ^^^ operand lo := by
  apply BitVec.eq_of_getLsbD_eq
  intro i h
  rw [ofWire, BitVec.getLsbD_append]
  by_cases hi : i < 8
  · simp [operand, hi, h]
  · simp [operand, hi, h, BitVec.getLsbD_of_ge lo i (by omega)]

/-- A word is the value of exactly one pair of bytes, its own two (R32). -/
theorem eq_ofWire_iff {c : Word} {lo hi : Byte} :
    c = ofWire lo hi ↔ lo = c.extractLsb' 0 8 ∧ hi = c.extractLsb' 8 8 := by
  constructor
  · rintro rfl
    have hbytes := wireBytes_ofWire lo hi
    simp only [wireBytes, List.cons.injEq, and_true] at hbytes
    exact hbytes.imp Eq.symm Eq.symm
  · rintro ⟨rfl, rfl⟩
    rw [ofWire, BitVec.extractLsb'_append_extractLsb'_eq_extractLsb' (by decide)]
    exact BitVec.extractLsb'_eq_self.symm

/-! ### The byte absorb -/

theorem absorb_eq (a : Word) (b : Byte) : absorb a b = bitSteps 8 (a ^^^ operand b) := rfl

/-- Settles O11: the eight steps are those of the definition, and the byte has no bits in the high half. -/
theorem absorbIsEightBitStepsAfterTheXor : Obligations.AbsorbIsEightBitStepsAfterTheXor := by
  refine ⟨fun a b => ⟨rfl, ?_⟩, by decide⟩
  calc (a ^^^ operand b).extractLsb' 8 8
    _ = a.extractLsb' 8 8 ^^^ (operand b).extractLsb' 8 8 := BitVec.extractLsb'_xor
    _ = a.extractLsb' 8 8 := by rw [extractLsb'_high_operand, BitVec.xor_zero]

theorem absorb_injective (b : Byte) : Function.Injective fun a : Word => absorb a b := fun _ _ h =>
  (BitVec.xor_left_inj _).mp ((bitSteps_bijective _).injective h)

/-- Settles O12: the inverse step reads the parity off the top bit, and the accumulators are finitely many. -/
theorem bitStepIsABijectionWithItsInverse : Obligations.BitStepIsABijectionWithItsInverse :=
  ⟨fun _ => rfl, bitUnstep_bitStep, bitStep_bitUnstep, fun b => Finite.injective_iff_bijective.mp (absorb_injective b),
    fun _ _ _ h => operand_injective ((BitVec.xor_right_inj _).mp ((bitSteps_bijective _).injective h))⟩

theorem absorb_xor (a c : Word) (b d : Byte) : absorb (a ^^^ c) (b ^^^ d) = absorb a b ^^^ absorb c d := by
  have hxor : a ^^^ c ^^^ (operand b ^^^ operand d) = a ^^^ operand b ^^^ (c ^^^ operand d) := by ac_rfl
  rw [absorb_eq, operand_xor, hxor, bitSteps_xor]
  rfl

/-- Settles O14: the steps are linear and the initial value is not 0, as two messages of one byte show. -/
theorem stepAndAbsorbAreLinear : Obligations.StepAndAbsorbAreLinear :=
  ⟨bitStep_xor, absorb_xor, by decide, [0x01#8], [0x02#8], by decide⟩

theorem absorb_zero_zero : absorb 0x0000#16 0x00#8 = 0x0000#16 := by decide

/-- Eight steps move a high byte down to the low byte. -/
theorem bitSteps_eight_high (hi : Byte) : bitSteps 8 (operand hi <<< 8) = operand hi := by
  rw [bitSteps_of_low_bits_zero 8 fun i hi => by simp [hi], operand_shiftLeft_shiftRight]

/-- Eight steps of a word, by its two bytes (the proof of R67). -/
theorem bitSteps_eight_ofWire (lo hi : Byte) : bitSteps 8 (ofWire lo hi) = operand hi ^^^ absorb 0x0000#16 lo := by
  rw [ofWire_eq_xor, bitSteps_xor, bitSteps_eight_high, absorb_eq, BitVec.zero_xor]

/-! ### The byte table -/

theorem tableRows0_eq : tableRows0 = (List.range' 0x00 64).map fun i => absorb 0x0000#16 (BitVec.ofNat 8 i) := by decide
theorem tableRows1_eq : tableRows1 = (List.range' 0x40 64).map fun i => absorb 0x0000#16 (BitVec.ofNat 8 i) := by decide
theorem tableRows2_eq : tableRows2 = (List.range' 0x80 64).map fun i => absorb 0x0000#16 (BitVec.ofNat 8 i) := by decide
theorem tableRows3_eq : tableRows3 = (List.range' 0xC0 64).map fun i => absorb 0x0000#16 (BitVec.ofNat 8 i) := by decide

/-- The table that 95 V4 lists is that of R67. -/
theorem crcTable_eq : crcTable = (List.range 256).map fun i => absorb 0x0000#16 (BitVec.ofNat 8 i) := by
  rw [crcTable, tableRows0_eq, tableRows1_eq, tableRows2_eq, tableRows3_eq, ← List.map_append, ← List.map_append,
    ← List.map_append, List.range'_append_1, List.range'_append_1, List.range'_append_1, List.range_eq_range']

theorem crcTable_length : crcTable.length = 256 := by rw [crcTable_eq, List.length_map, List.length_range]

theorem tableEntry_eq_absorb (i : Byte) : tableEntry i = absorb 0x0000#16 i := by
  have hi : i.toNat < 256 := i.isLt
  simp [tableEntry, crcTable_eq, hi]

theorem absorb_eq_absorbByTable (a : Word) (b : Byte) : absorb a b = absorbByTable a b := by
  have hhigh : (a ^^^ operand b) >>> 8 = a >>> 8 := by
    rw [BitVec.ushiftRight_xor_distrib, operand_shiftRight, BitVec.xor_zero]
  rw [absorb_eq, absorbByTable, tableEntry_eq_absorb, ← hhigh, ← operand_high, ← bitSteps_eight_ofWire,
    ← eq_ofWire_iff.mpr ⟨rfl, rfl⟩]

/-- Settles O13: the high byte moves down, and the low byte gives the entry. -/
theorem absorbEqualsTheByteTableForm : Obligations.AbsorbEqualsTheByteTableForm :=
  ⟨crcTable_length, tableEntry_eq_absorb, fun a b => ⟨absorb_eq_absorbByTable a b, absorb_eq_absorbByTable a b⟩,
    by decide⟩

/-! ### The bit that an iteration tests -/

theorem getLsbD_operand_bit {j : Nat} (hj : j < 8) (i : Nat) : (operand (1#8 <<< j)).getLsbD i = decide (j = i) := by
  rw [Bool.eq_iff_iff]
  simp [operand]
  omega

/-- Turning input bit `j` over reaches bit 0 after exactly `j` steps (R31). -/
theorem bitSteps_xor_bit {k j : Nat} (x : Word) (b : Byte) (hkj : k ≤ j) (hj : j < 8) :
    (bitSteps k (x ^^^ operand (b ^^^ 1#8 <<< j))).getLsbD 0 =
      ((bitSteps k (x ^^^ operand b)).getLsbD 0 ^^ decide (j = k)) := by
  have hlow : bitSteps k (operand (1#8 <<< j)) = operand (1#8 <<< j) >>> k :=
    bitSteps_of_low_bits_zero k fun i hi => by
      rw [getLsbD_operand_bit hj]
      exact decide_eq_false (by omega)
  rw [operand_xor, ← BitVec.xor_assoc, bitSteps_xor, BitVec.getLsbD_xor, hlow, BitVec.getLsbD_ushiftRight,
    getLsbD_operand_bit hj, Nat.add_zero]

/-- Settles O20: of the bits from `k` on, bit `k` alone is at bit 0 after `k` steps. -/
theorem bitKIsConsumedByIterationK : Obligations.BitKIsConsumedByIterationK := by
  intro a b k hk
  refine ⟨(bitSteps_xor_bit a b le_rfl hk).trans ?_, fun j hkj hj => (bitSteps_xor_bit a b hkj.le hj).trans ?_⟩
  · rw [decide_eq_true rfl, Bool.xor_true]
    rfl
  · rw [decide_eq_false hkj.ne', Bool.xor_false]
    rfl

/-! ### The residue -/

/-- A word's bytes, the low one first, absorb to zero from the word (R69). -/
theorem absorb_absorb_ofWire (lo hi : Byte) : absorb (absorb (ofWire lo hi) lo) hi = 0x0000#16 := by
  have hlo : absorb (ofWire lo hi) lo = operand hi := by
    rw [absorb_eq, ofWire_eq_xor, BitVec.xor_assoc, BitVec.xor_self, BitVec.xor_zero, bitSteps_eight_high]
  rw [hlo, absorb_eq, BitVec.xor_self]
  decide

/-- R70, by injectivity: of the accumulators, only the pair's own word is taken to zero by the pair. -/
theorem absorb_absorb_eq_zero_iff {a : Word} {lo hi : Byte} :
    absorb (absorb a lo) hi = 0x0000#16 ↔ a = ofWire lo hi := by
  rw [← absorb_absorb_ofWire lo hi]
  exact ((absorb_injective hi).comp (absorb_injective lo)).eq_iff

/-- Settles O17: the pair's own word is the one accumulator that it takes to zero. -/
theorem checkBytesAreUnique : Obligations.CheckBytesAreUnique :=
  fun _ _ _ => absorb_absorb_eq_zero_iff.trans eq_ofWire_iff

theorem absorbAll_append (a : Word) (bs ds : List Byte) : absorbAll a (bs ++ ds) = absorbAll (absorbAll a bs) ds :=
  List.foldl_append

theorem checksum_append (bs ds : List Byte) : checksum (bs ++ ds) = absorbAll (checksum bs) ds := absorbAll_append _ bs ds

theorem checksum_concat (bs : List Byte) (b : Byte) : checksum (bs ++ [b]) = absorb (checksum bs) b :=
  checksum_append bs [b]

theorem checksum_fixture : checksum [0x03#8, 0x04#8, 0x02#8, 0x36#8, 0x00#8, 0xDB#8] = 0x0550#16 := by
  simp [checksum, absorbAll, absorb_eq, bitSteps, bitStep, operand, Config.poly, Config.accInit]

/-- Settles O15: the checksum is a left fold, so the last byte is absorbed last. -/
theorem checksumAbsorbsTheBytesInOrderFromInit : Obligations.ChecksumAbsorbsTheBytesInOrderFromInit := by
  refine ⟨rfl, checksum_concat, checksum_fixture, ?_, ?_⟩ <;>
    simp [checksum, absorbAll, absorb_eq, bitSteps, bitStep, operand, Config.poly, Config.accInit]

/-- A message and two bytes leave zero exactly if the pair is the message's checksum on the wire (R69, R70). -/
theorem checksum_append_pair_eq_zero_iff {m : List Byte} {lo hi : Byte} :
    checksum (m ++ [lo, hi]) = 0x0000#16 ↔ checksum m = ofWire lo hi := by
  rw [checksum_append]
  exact absorb_absorb_eq_zero_iff

theorem checksum_append_own_checksum (m : List Byte) :
    checksum (m ++ [(checksum m).extractLsb' 0 8, (checksum m).extractLsb' 8 8]) = 0x0000#16 :=
  checksum_append_pair_eq_zero_iff.mpr (eq_ofWire_iff.mpr ⟨rfl, rfl⟩)

/-- Settles O16: the checksum's bytes are its wire pair; those of `0x40BF` in the other order are the pair of `0xBF40`. -/
theorem messageWithItsChecksumLeavesZero : Obligations.MessageWithItsChecksumLeavesZero := by
  have hzero : checksum [0x00#8] = 0x40BF#16 := by decide
  refine ⟨checksum_append_own_checksum, ?_, ?_, [0x00#8], ?_⟩
  · exact checksum_append_pair_eq_zero_iff (m := []).mpr (by decide)
  · exact checksum_append_pair_eq_zero_iff.mpr (checksum_fixture.trans (by decide))
  · rw [ne_eq, checksum_append_pair_eq_zero_iff, hzero]
    decide

/-! ### One command in `run` -/

theorem Block.writeAcc_of_acc {b : Block} {a : Word} (h : b.acc = some a) : b.writeAcc a = b := by
  rw [Block.writeAcc, ← h]

theorem Block.absorbByte_of_acc {b : Block} {a : Word} (d : Byte) (h : b.acc = some a) :
    b.absorbByte d = b.writeAcc (absorb a d) := by
  rw [Block.absorbByte, h]
  rfl

theorem exec_init_of_run {s : State} (h : s.block.mode = .run) :
    exec .init s = .next { s with block := s.block.writeAcc Config.accInit } := by
  rw [exec_init, whenRunning_of_run h]

theorem exec_init_of_faulted {s : State} (h : s.block.mode = .faulted) : exec .init s = .next s := by
  rw [exec_init, whenRunning_of_faulted h]

/-- `INIT` after a completed `INIT` changes nothing: the block is in `faulted`, or its accumulator is `0xFFFF` already. -/
theorem exec_init_again {s t : State} (h : exec .init s = .next t) : exec .init t = .next t := by
  rw [exec_init] at h
  rcases whenRunning_next h with ⟨hm, rfl⟩ | ⟨hm, rfl⟩
  · exact exec_init_of_faulted hm
  · exact exec_init_of_run hm

/-- Settles O23: `INIT` writes the one value `0xFFFF` in `run`, which the block after reset holds, and nothing in `faulted`. -/
theorem initSetsTheAccumulator : Obligations.InitSetsTheAccumulator := by
  refine ⟨rfl, fun s hm => ⟨exec_init_of_run hm, fun a => ?_⟩, fun _ _ => exec_init_again, rfl,
    fun _ => exec_init_of_faulted⟩
  rw [exec_init_of_run hm]
  exact exec_init_of_run hm

/-- Settles O24: absorbing into a held value writes the eight steps of it. -/
theorem updateAbsorbsItsByte : Obligations.UpdateAbsorbsItsByte := by
  refine ⟨fun _ => rfl, fun s b a hm ha => ?_, by decide⟩
  rw [exec_update, whenRunning_of_run hm, Block.absorbByte_of_acc b ha]
  rfl

/-! ### Sequences of commands in `run` -/

/-- The words that feed a byte sequence to the block (R65). -/
def updateWords (bs : List Byte) : List CmdWord := bs.map fun b => encode (.update b)

/-- `UPDATE`s fold their bytes into the accumulator and write nothing else (R59, R66). -/
theorem wordsEffect_updateWords (bs : List Byte) {b : Block} {a : Word} (hm : b.mode = .run) (ha : b.acc = some a) :
    wordsEffect b (updateWords bs) = b.writeAcc (absorbAll a bs) := by
  induction bs generalizing b a with
  | nil => exact (Block.writeAcc_of_acc ha).symm
  | cons d bs ih =>
    rw [updateWords, List.map_cons, wordsEffect_cons_of_run _ _ hm, wordEffect_of_update b (decode_encode _),
      Block.absorbByte_of_acc d ha]
    exact ih hm rfl

/-- `INIT` and then `UPDATE`s leave the checksum, whatever the accumulator held (R58, R65). -/
theorem wordsEffect_init_updateWords (bs : List Byte) {b : Block} (hm : b.mode = .run) :
    wordsEffect b (encode .init :: updateWords bs) = b.writeAcc (checksum bs) := by
  rw [wordsEffect_cons_of_run _ _ hm, wordEffect_of_init b (decode_encode _)]
  exact wordsEffect_updateWords bs hm rfl

/-- `NOP` words may be left out of a sequence (R57). -/
theorem wordsEffect_filter_not_nop (b : Block) (ws : List CmdWord) :
    wordsEffect b (ws.filter fun w => w != 0x000#10) = wordsEffect b ws := by
  induction ws generalizing b with
  | nil => rfl
  | cons w ws ih =>
    by_cases hw : w = 0x000#10
    · have hnop : wordEffect w b = b := wordEffect_of_nop b (by rw [hw]; rfl)
      rw [List.filter_cons_of_neg (by simp [hw]), ih]
      simp [wordsEffect, hnop]
    · rw [List.filter_cons_of_pos (by simp [hw])]
      exact ih _

/-- From `run` a sequence of words completes, the block being what they make of it. -/
theorem runSteps_presenting_of_run {s : State} (ws : List CmdWord) (hm : s.block.mode = .run) :
    runSteps ws.length (s.presenting ws) = .next { s with pending := [], block := wordsEffect s.block ws } :=
  (runSteps_words ws (s.presenting ws) [] (by rw [s.presenting_block, hm]; nofun) (List.append_nil _).symm).1

/-- Settles O22: `NOP` is the identity in `run`, and a sequence of `NOP`s is an empty one. -/
theorem nopWritesNothing : Obligations.NopWritesNothing := by
  refine ⟨rfl, fun s hm => ⟨by rw [exec_nop, whenRunning_of_run hm], fun n => ?_⟩⟩
  have hnops : wordsEffect s.block (List.replicate n 0x000#10) = s.block := by
    rw [← wordsEffect_filter_not_nop, List.filter_replicate_of_neg (by decide)]
    rfl
  have hrun := runSteps_presenting_of_run (List.replicate n 0x000#10) hm
  rwa [List.length_replicate, hnops] at hrun

/-- Settles O45: without its `NOP`s the sequence is `INIT` and `UPDATE`s, and the block after reset is as after an `INIT`. -/
theorem commandSequenceComputesTheChecksum : Obligations.CommandSequenceComputesTheChecksum := by
  constructor
  · intro s ws bs hs hm hws
    obtain ⟨_, hfault, _⟩ := hs
    have hblock : wordsEffect s.block ws = s.block.writeAcc (checksum bs) := by
      rw [← wordsEffect_filter_not_nop, hws]
      exact wordsEffect_init_updateWords bs hm
    refine ⟨_, runSteps_presenting_of_run ws hm, ?_⟩
    rw [hblock]
    exact ⟨hm, hfault hm, rfl⟩
  · intro s bs
    have hrun := runSteps_runOf s (updateWords bs)
    rw [updateWords, List.length_map, ← updateWords, wordsEffect_updateWords bs rfl rfl] at hrun
    exact ⟨_, hrun, rfl, rfl, rfl⟩

theorem eq_encode_update_of_mask {w : CmdWord} (h : w &&& 0x300#10 = 0x200#10) : encode (.update (dataField w)) = w :=
  encode_of_decode_ok (decode_of_opField_update (and_updateMask_eq_iff.mp h))

/-- Words that are all `UPDATE`s are the words of their bytes (R45). -/
theorem updateWords_dataField {ws : List CmdWord} (h : ∀ w ∈ ws, w &&& 0x300#10 = 0x200#10) :
    updateWords (ws.map dataField) = ws := by
  rw [updateWords, List.map_map]
  exact List.map_congr_left (fun w hw => eq_encode_update_of_mask (h w hw)) |>.trans (List.map_id' ws)

/-- Settles O46: without its `NOP`s the sequence is the `UPDATE`s of its words' bytes. -/
theorem checksumMayBeFedInPieces : Obligations.ChecksumMayBeFedInPieces := by
  refine ⟨checksum_append, fun s a ws hm ha hws => ?_⟩
  have hupdates : ∀ w ∈ ws.filter (fun w => w != 0x000#10), w &&& 0x300#10 = 0x200#10 := by
    intro w hw
    obtain ⟨hmem, hne⟩ := List.mem_filter.mp hw
    exact (hws w hmem).resolve_left (bne_iff_ne.mp hne)
  have hblock := wordsEffect_updateWords ((ws.filter fun w => w != 0x000#10).map dataField) hm ha
  rw [updateWords_dataField hupdates, wordsEffect_filter_not_nop] at hblock
  rw [runSteps_presenting_of_run ws hm, hblock]
  rfl

/-! ### The frame test -/

theorem Frame.passes_iff (f : Frame) : f.passes = true ↔ checksum f.payload.toList = ofWire f.check0 f.check1 :=
  beq_iff_eq

theorem Frame.passes_iff_residue (f : Frame) : f.passes = true ↔ checksum f.bytes = 0x0000#16 :=
  f.passes_iff.trans checksum_append_pair_eq_zero_iff.symm

theorem Frame.bytes_length (f : Frame) : f.bytes.length = 8 := by
  simp [Frame.bytes]

theorem absorbAll_zero_replicate_zero (n : Nat) : absorbAll 0x0000#16 (List.replicate n 0x00#8) = 0x0000#16 := by
  induction n with
  | zero => rfl
  | succ n ih =>
    rw [List.replicate_succ, absorbAll, List.foldl_cons, absorb_zero_zero]
    exact ih

/-- `INIT` and then the frame's eight bytes leave the checksum of all eight in the accumulator (R72). -/
theorem Frame.run_bytes (f : Frame) {s : State} (hm : s.block.mode = .run) :
    runSteps 9 (s.presenting (encode .init :: updateWords f.bytes)) =
      .next { s with pending := [], block := s.block.writeAcc (checksum f.bytes) } := by
  have hrun := runSteps_presenting_of_run (encode .init :: updateWords f.bytes) hm
  rwa [wordsEffect_init_updateWords f.bytes hm, List.length_cons, updateWords, List.length_map, f.bytes_length] at hrun

/-- Settles O18: the check bytes are the payload's checksum on the wire exactly if all eight bytes leave zero, and that residue
is what the block shows after them. -/
theorem framePassesExactlyWhenAllItsBytesLeaveZero : Obligations.FramePassesExactlyWhenAllItsBytesLeaveZero := by
  refine ⟨fun f => ⟨f.passes_iff, f.passes_iff_residue, fun s hm => ⟨_, f.run_bytes hm, hm, ?_⟩⟩,
    absorbAll_zero_replicate_zero⟩
  rw [f.passes_iff_residue]
  simp [Block.output]

end Sys2Proof.Machine

/-! SUPPORT. The step on a word in each mode, the run that completes after the first reset, and what a run with a reserved word
keeps (60_exceptions.md). -/

namespace Sys2Proof.Machine

/-! ### A command and a word, by the mode -/

/-- A command does what its word does (R80). -/
theorem exec_eq_whenRunning (i : Instr) (s : State) : exec i s = whenRunning (wordEffect (encode i)) s := by
  rw [← presentWord_of_decode_ok s (decode_encode i), presentWord_eq]

theorem presentWord_of_unreset {s : State} (w : CmdWord) (hm : s.block.mode = .unreset) :
    presentWord w s = .fault .notReset := by
  rw [presentWord_eq, whenRunning_of_unreset hm]

theorem presentWord_of_faulted {s : State} (w : CmdWord) (hm : s.block.mode = .faulted) : presentWord w s = .next s := by
  rw [presentWord_eq, whenRunning_of_faulted hm]

theorem presentWord_of_run {s : State} (w : CmdWord) (hm : s.block.mode = .run) :
    presentWord w s = .next { s with block := wordEffect w s.block } := by
  rw [presentWord_eq, whenRunning_of_run hm]

/-- Settles O21: in `run` a command has the effect of its word, which is a legal one. -/
theorem everyCommandCompletesInRun : Obligations.EveryCommandCompletesInRun := by
  intro i s hm
  obtain ⟨hmode, hfault, hcmd⟩ := wordEffect_frame_of_ok s.block (decode_encode i)
  exact ⟨_, (exec_eq_whenRunning i s).trans (whenRunning_of_run hm), hmode.trans hm, hfault, hcmd⟩

/-- Settles O27: the word takes the fault, which does not write the accumulator. -/
theorem reservedWordFaultsPrecisely : Obligations.ReservedWordFaultsPrecisely :=
  fun _ _ hm ⟨_, hr⟩ => ⟨_, presentWord_of_error hm hr, rfl, rfl⟩

/-- Settles O30: the mode decides first, and in `run` the verdict gives the effect. -/
theorem commandStepFunction : Obligations.CommandStepFunction := by
  refine ⟨fun _ _ _ => step_of_cons, fun s w => ⟨presentWord_of_unreset w, presentWord_of_faulted w, fun hm => ?_⟩⟩
  rw [presentWord_of_run w hm]
  refine ⟨fun h => ?_, fun h => ?_, fun d a h ha => ?_, fun _ h => ?_⟩
  · rw [wordEffect_of_nop _ h]
  · rw [wordEffect_of_init _ h]
    rfl
  · rw [wordEffect_of_update _ h, Block.absorbByte_of_acc d ha]
    rfl
  · rw [wordEffect_of_error _ h]
    rfl

/-- Settles O28: a word does nothing in `faulted`, and the steps that change a block there are the resets. -/
theorem faultedIgnoresEveryWordUntilReset : Obligations.FaultedIgnoresEveryWordUntilReset := by
  intro s hm
  refine ⟨fun i => (exec_eq_whenRunning i s).trans (whenRunning_of_faulted hm), fun w => presentWord_of_faulted w hm,
    fun w rest hp => step_of_word_of_faulted hp hm, fun t h => ?_⟩
  rcases step_block h with hb | ⟨e, rest, hp, ⟨he, hb⟩ | ⟨w, _, hrun, _⟩⟩
  · exact .inl hb
  · exact .inr ⟨e, rest, hp, he, congrArg Block.mode hb⟩
  · rw [hm] at hrun
    cases hrun

/-! ### Runs after the first reset -/

/-- No step brings the block back before its first reset (R17). -/
theorem step_mode_ne_unreset {s t : State} (hm : s.block.mode ≠ .unreset) (h : step s = .next t) :
    t.block.mode ≠ .unreset := by
  rcases step_block h with hb | ⟨_, _, _, ⟨_, hb⟩ | ⟨w, _, hrun, hb⟩⟩ <;> rw [hb]
  · exact hm
  · nofun
  · exact wordEffect_reset w hrun

/-- After the first reset the step on any event completes and takes that event from the host (R100). -/
theorem step_of_cons_completes {s : State} {e : HostEvent} {rest : List HostEvent} (hm : s.block.mode ≠ .unreset)
    (h : s.pending = e :: rest) : ∃ t, step s = .next t ∧ t.pending = rest := by
  cases e with
  | command w => exact ⟨_, step_of_word hm h, rfl⟩
  | reset | resetWithCommand => exact ⟨_, step_of_isReset h rfl, rfl⟩
  | sample o => exact ⟨_, step_of_sample hm h, rfl⟩
  | pause => exact ⟨_, step_of_cons h, rfl⟩

/-- After the first reset a run completes, one step for each event, whatever the events. -/
theorem runSteps_pending_completes {events : List HostEvent} {s : State} (hm : s.block.mode ≠ .unreset)
    (hp : s.pending = events) : ∃ t, runSteps events.length s = .next t ∧ t.ended ∧ t.block.mode ≠ .unreset := by
  induction events generalizing s with
  | nil => exact ⟨s, runSteps_zero s, hp, hm⟩
  | cons e rest ih =>
    obtain ⟨t, hstep, hrest⟩ := step_of_cons_completes hm hp
    rw [List.length_cons, runSteps_succ_of_next _ hstep]
    exact ih (step_mode_ne_unreset hm hstep) hrest

/-- Settles O51: one step for each event. -/
theorem everyEventTakesOneStepAndNoRunStops : Obligations.EveryEventTakesOneStepAndNoRunStops :=
  fun _ hm => runSteps_pending_completes hm rfl

/-- Settles O29: in `unreset` a word and a sample fail the mode check, and after the host's reset its other events complete. -/
theorem unresetWordsAndSamplesAreModelFaults : Obligations.UnresetWordsAndSamplesAreModelFaults := by
  refine ⟨fun s hm => ⟨fun i => (exec_eq_whenRunning i s).trans (whenRunning_of_unreset hm),
    fun w => presentWord_of_unreset w hm, fun _ => sampleOutput_of_unreset hm, ?_⟩, fun f c events => ⟨rfl, rfl, ?_⟩⟩
  · rintro e rest hp (⟨w, rfl⟩ | ⟨o, rfl⟩)
    · exact step_of_word_of_unreset hp hm
    · exact step_of_sample_of_unreset hp hm
  · have hreset : step (State.powerOn f c (.reset :: events)) = .next ⟨Block.afterReset, events, []⟩ :=
      step_of_isReset rfl rfl
    obtain ⟨t, hrun, _⟩ := runSteps_pending_completes (s := ⟨Block.afterReset, events, []⟩) nofun rfl
    exact ⟨t, (runSteps_succ_of_next _ hreset).trans hrun⟩

/-! ### The bytes absorbed, and what a reserved word keeps of them -/

theorem bytesAbsorbed_cons_of_nop {w : CmdWord} (bs : List Byte) (ws : List CmdWord) (h : decode w = .ok .nop) :
    bytesAbsorbed bs (w :: ws) = bytesAbsorbed bs ws := by
  simp [bytesAbsorbed, h]

theorem bytesAbsorbed_cons_of_init {w : CmdWord} (bs : List Byte) (ws : List CmdWord) (h : decode w = .ok .init) :
    bytesAbsorbed bs (w :: ws) = bytesAbsorbed [] ws := by
  simp [bytesAbsorbed, h]

theorem bytesAbsorbed_cons_of_update {w : CmdWord} {d : Byte} (bs : List Byte) (ws : List CmdWord)
    (h : decode w = .ok (.update d)) : bytesAbsorbed bs (w :: ws) = bytesAbsorbed (bs ++ [d]) ws := by
  simp [bytesAbsorbed, h]

/-- Legal words from `run` write nothing but the accumulator, and keep it at the checksum of the bytes absorbed (R101). -/
theorem wordsEffect_of_legal {ws : List CmdWord} (hws : ∀ w ∈ ws, legalWord w = true) {b : Block} {bs : List Byte}
    (hm : b.mode = .run) (ha : b.acc = some (checksum bs)) :
    wordsEffect b ws = b.writeAcc (checksum (bytesAbsorbed bs ws)) := by
  induction ws generalizing b bs with
  | nil => exact (Block.writeAcc_of_acc ha).symm
  | cons w ws ih =>
    obtain ⟨hw, hws⟩ := List.forall_mem_cons.mp hws
    obtain ⟨i, hi⟩ := decode_ok_of_legalWord hw
    rw [wordsEffect_cons_of_run w ws hm]
    cases i with
    | nop =>
      rw [wordEffect_of_nop b hi, bytesAbsorbed_cons_of_nop bs ws hi]
      exact ih hws hm ha
    | init =>
      rw [wordEffect_of_init b hi, bytesAbsorbed_cons_of_init bs ws hi]
      exact ih hws hm rfl
    | update d =>
      rw [wordEffect_of_update b hi, bytesAbsorbed_cons_of_update bs ws hi, Block.absorbByte_of_acc d ha,
        ← checksum_concat]
      exact ih hws hm rfl

/-- After a reserved word in `run` no later word has any effect (R77, R78). -/
theorem wordsEffect_cons_of_error {w : CmdWord} {r : Reserved} {b : Block} (ws : List CmdWord) (hm : b.mode = .run)
    (h : decode w = .error r) : wordsEffect b (w :: ws) = b.takeReservedCommand w := by
  rw [wordsEffect_cons_of_run w ws hm, wordEffect_of_error b h, wordsEffect_of_faulted ws (b.takeReservedCommand_mode w)]

/-- Settles O49: the legal words leave their checksum in `run`, and the reserved word is the last one to act. -/
theorem faultedRunKeepsTheFirstReservedWord : Obligations.FaultedRunKeepsTheFirstReservedWord := by
  intro s good w rest hgood hw
  obtain ⟨r, hr⟩ := legalWord_eq_false_iff_decode_error.mp hw
  have hblock : wordsEffect Block.afterReset (good ++ w :: rest) =
      (Block.afterReset.writeAcc (checksum (bytesAbsorbed [] good))).takeReservedCommand w := by
    rw [wordsEffect_append, wordsEffect_of_legal hgood (bs := []) rfl rfl, wordsEffect_cons_of_error rest rfl hr]
  exact ⟨_, runSteps_runOf s (good ++ w :: rest), hblock⟩

end Sys2Proof.Machine

/-! SUPPORT. What a reset leaves, the end that every run is observed in, and the bytes that the accumulator of a good end covers
(70_reset_and_hazards.md). -/

namespace Sys2Proof.Machine

/-! ### Reset -/

/-- Settles O40: the block after a reset is the same one, whatever it was before. -/
theorem resetLeavesTheResetValuesAndNoTrace : Obligations.ResetLeavesTheResetValuesAndNoTrace := by
  refine ⟨fun _ _ hp => step_of_isReset hp rfl, fun _ _ _ ht hu => ?_, fun _ _ _ => rfl, fun _ _ h => ?_⟩
  · rw [resetBlock_next hu, resetBlock_next ht]
  · rw [resetBlock_next h]
    rfl

/-! ### The end of a run -/

theorem Block.observe_of_reset {b : Block} (h : b.mode ≠ .unreset) :
    b.observe = some { mode := b.mode, crcOut := b.acc, fault := b.fault, faultCmd := b.faultCmd } := by
  cases hm : b.mode with
  | unreset => exact absurd hm h
  | run | faulted => simp [Block.observe, hm]

theorem wordsEffect_mode_ne_unreset (ws : List CmdWord) {b : Block} (h : b.mode ≠ .unreset) :
    (wordsEffect b ws).mode ≠ .unreset :=
  (runSteps_words ws ⟨b, ws.map .command, []⟩ [] h (List.append_nil _).symm).2

/-! ### Legal words without an `INIT` -/

/-- A legal word that is not `INIT` is `NOP` or lies in the row of `UPDATE`, and not both (R43 to R45). -/
theorem ne_nop_eq_updateMask_of_legal {w : CmdWord} (h : legalWord w = true) (hinit : w ≠ 0x100#10) :
    (w != 0x000#10) = (w &&& 0x300#10 == 0x200#10) := by
  obtain ⟨i, hi⟩ := decode_ok_of_legalWord h
  obtain rfl := decode_eq_ok_iff.mp hi
  cases i with
  | nop => rfl
  | init => exact absurd rfl hinit
  | update b =>
    have hmask : encode (.update b) &&& 0x300#10 = 0x200#10 := and_updateMask_eq_iff.mpr (opField_encode_update b)
    have hne : encode (.update b) ≠ 0x000#10 := fun h0 => absurd (h0 ▸ hmask) (by decide)
    rw [bne_iff_ne.mpr hne, beq_iff_eq.mpr hmask]

/-- Legal words without an `INIT` fold the bytes of their `UPDATE`s into the accumulator (R64, R101): without the `NOP`s they
are those `UPDATE`s. -/
theorem wordsEffect_of_legal_without_init {ws : List CmdWord} (hws : ∀ w ∈ ws, legalWord w = true) (hinit : 0x100#10 ∉ ws)
    {b : Block} {a : Word} (hm : b.mode = .run) (ha : b.acc = some a) :
    wordsEffect b ws =
      b.writeAcc (absorbAll a ((ws.filter fun w => w &&& 0x300#10 == 0x200#10).map dataField)) := by
  have hfilter : ws.filter (fun w => w != 0x000#10) = ws.filter (fun w => w &&& 0x300#10 == 0x200#10) :=
    List.filter_congr fun w hw => ne_nop_eq_updateMask_of_legal (hws w hw) (ne_of_mem_of_not_mem hw hinit)
  have hupdates : ∀ w ∈ ws.filter (fun w => w &&& 0x300#10 == 0x200#10), w &&& 0x300#10 = 0x200#10 :=
    fun w hw => beq_iff_eq.mp (List.mem_filter.mp hw).2
  rw [← wordsEffect_filter_not_nop, hfilter, ← wordsEffect_updateWords _ hm ha, updateWords_dataField hupdates]

/-- Legal words before an `INIT` leave nothing in the accumulator that the `INIT` does not write over (R58). -/
theorem wordsEffect_append_init {before : List CmdWord} (hbefore : ∀ w ∈ before, legalWord w = true)
    (after : List CmdWord) :
    wordsEffect Block.afterReset (before ++ 0x100#10 :: after) = wordsEffect Block.afterReset after := by
  rw [wordsEffect_append, wordsEffect_of_legal hbefore (bs := []) rfl rfl, wordsEffect_cons_of_run _ _ rfl,
    wordEffect_of_init _ (show decode 0x100#10 = .ok .init from rfl)]
  rfl

/-- Settles O47: the words of a good run are legal, those up to the last `INIT` may be left out, and the others fold their
bytes into the accumulator of the block after reset. -/
theorem goodRunEndsWithTheChecksumSinceTheLastInit : Obligations.GoodRunEndsWithTheChecksumSinceTheLastInit := by
  intro s ws
  refine ⟨_, runSteps_runOf s ws, rfl, Block.observe_of_reset (wordsEffect_mode_ne_unreset ws nofun), Iff.rfl, ?_⟩
  rintro ⟨_, hmode, hfault⟩ before after hcut hinit
  have hlegal := (wordsEffect_good_iff ws rfl rfl).mp ⟨hmode, hfault⟩
  have ⟨hsince, hafter⟩ : wordsEffect Block.afterReset ws = wordsEffect Block.afterReset after ∧
      ∀ w ∈ after, legalWord w = true := by
    rcases hcut with rfl | ⟨rfl, _⟩
    · obtain ⟨hbefore, hafter⟩ := List.forall_mem_append.mp hlegal
      exact ⟨wordsEffect_append_init hbefore after, (List.forall_mem_cons.mp hafter).2⟩
    · exact ⟨rfl, hlegal⟩
  have hfold := wordsEffect_of_legal_without_init hafter hinit Block.afterReset_mode Block.afterReset_acc
  exact congrArg Block.acc (hsince.trans hfold)

end Sys2Proof.Machine

/-! SUPPORT. The assembler: how a line falls into tokens, which texts read as numbers, the words and refusals of each mnemonic,
and how the lines of a text join (30_encoding.md section 3). At the end, three choices of the model about the block. -/

namespace Sys2Proof.Machine

/-! ### Tokens -/

/-- A character that neither ends a token nor starts a comment (R49; log entry 9). -/
def isTokenChar (c : Char) : Bool := c != ',' && c != ';' && !isBlankChar c

/-- A text that a line holds as one token. -/
abbrev IsToken (tok : List Char) : Prop := tok ≠ [] ∧ tok.all isTokenChar = true

theorem IsToken.chars {tok : List Char} (h : IsToken tok) : ∀ c ∈ tok, isTokenChar c = true := List.all_eq_true.mp h.2

theorem IsToken.cons {c : Char} {tok : List Char} (hc : isTokenChar c = true) (h : IsToken tok) : IsToken (c :: tok) :=
  ⟨List.cons_ne_nil c tok, by rw [List.all_cons, hc, h.2, Bool.and_self]⟩

theorem isTokenChar_iff {c : Char} : isTokenChar c = true ↔ c ≠ ',' ∧ c ≠ ';' ∧ isBlankChar c = false := by
  simp [isTokenChar, and_assoc]

theorem flushToken_of_ne_nil {tok : List Char} (h : tok ≠ []) : flushToken tok = [tok] := if_neg h

theorem tokensFrom_comma (cur cs : List Char) :
    tokensFrom cur (',' :: cs) = flushToken cur ++ [','] :: tokensFrom [] cs := by
  simp [tokensFrom]

theorem tokensFrom_space (cur cs : List Char) : tokensFrom cur (' ' :: cs) = flushToken cur ++ tokensFrom [] cs := by
  simp [tokensFrom, isBlankChar]

theorem tokensFrom_append {tok : List Char} (h : ∀ c ∈ tok, isTokenChar c = true) (cur rest : List Char) :
    tokensFrom cur (tok ++ rest) = tokensFrom (cur ++ tok) rest := by
  induction tok generalizing cur with
  | nil => simp
  | cons c tok ih =>
    obtain ⟨hc, htok⟩ := List.forall_mem_cons.mp h
    obtain ⟨hcomma, _, hblank⟩ := isTokenChar_iff.mp hc
    simp [tokensFrom, hcomma, hblank, ih htok]

theorem tokensFrom_token {tok : List Char} (h : IsToken tok) : tokensFrom [] tok = [tok] := by
  have happend := tokensFrom_append h.chars [] []
  rwa [List.append_nil, List.nil_append, tokensFrom, flushToken_of_ne_nil h.1] at happend

theorem tokensFrom_token_space {tok : List Char} (h : IsToken tok) (rest : List Char) :
    tokensFrom [] (tok ++ ' ' :: rest) = tok :: tokensFrom [] rest := by
  rw [tokensFrom_append h.chars, tokensFrom_space, List.nil_append, flushToken_of_ne_nil h.1, List.singleton_append]

/-- The text of `crc`'s operands falls into them and the commas between them (R51). -/
theorem tokensFrom_joinOperands {toks : List (List Char)} (h : ∀ tok ∈ toks, IsToken tok) :
    tokensFrom [] (joinOperands toks) = commaTokens toks := by
  induction toks with
  | nil => rfl
  | cons tok toks ih =>
    obtain ⟨htok, htoks⟩ := List.forall_mem_cons.mp h
    cases toks with
    | nil => exact tokensFrom_token htok
    | cons next toks =>
      have hjoin : joinOperands (tok :: next :: toks) = tok ++ ',' :: ' ' :: joinOperands (next :: toks) := by
        simp [joinOperands]
      rw [hjoin, tokensFrom_append htok.chars, tokensFrom_comma, tokensFrom_space, ih htoks, List.nil_append,
        flushToken_of_ne_nil htok.1]
      rfl

/-! ### Comments -/

theorem stripComment_of_not_mem {line : List Char} (h : ';' ∉ line) : stripComment line = line :=
  List.takeWhile_eq_self_iff.mpr fun _ hc => bne_iff_ne.mpr (ne_of_mem_of_not_mem hc h)

theorem stripComment_append_comment (line comment : List Char) :
    stripComment (line ++ ';' :: comment) = stripComment line := by
  induction line with
  | nil => rfl
  | cons c line ih =>
    by_cases hc : c = ';'
    · rw [hc]; rfl
    · have hkeep (cs : List Char) : stripComment (c :: cs) = c :: stripComment cs :=
        List.takeWhile_cons_of_pos (bne_iff_ne.mpr hc)
      rw [List.cons_append, hkeep, hkeep, ih]

theorem semicolon_not_mem_token {tok : List Char} (h : IsToken tok) : ';' ∉ tok :=
  fun hmem => absurd (h.chars _ hmem) (by decide)

theorem semicolon_not_mem_joinOperands {toks : List (List Char)} (h : ∀ tok ∈ toks, IsToken tok) :
    ';' ∉ joinOperands toks := by
  induction toks with
  | nil => nofun
  | cons tok toks ih =>
    obtain ⟨htok, htoks⟩ := List.forall_mem_cons.mp h
    cases toks with
    | nil => exact semicolon_not_mem_token htok
    | cons next toks => simp [joinOperands, semicolon_not_mem_token htok, ih htoks]

theorem assembleLine_of_token {m : List Char} (hm : IsToken m) : assembleLine m = assembleTokens [m] := by
  rw [assembleLine, stripComment_of_not_mem (semicolon_not_mem_token hm), tokensFrom_token hm]

/-- A line of a first token and operands with a comma and a space between each two, as R49 to R51 write one. -/
theorem assembleLine_of_operands {m : List Char} {toks : List (List Char)} (hm : IsToken m)
    (h : ∀ tok ∈ toks, IsToken tok) :
    assembleLine (m ++ ' ' :: joinOperands toks) = assembleTokens (m :: commaTokens toks) := by
  have hcomment : ';' ∉ m ++ ' ' :: joinOperands toks := by
    simp [semicolon_not_mem_token hm, semicolon_not_mem_joinOperands h]
  rw [assembleLine, stripComment_of_not_mem hcomment, tokensFrom_token_space hm, tokensFrom_joinOperands h]

theorem assembleLine_of_operand {m tok : List Char} (hm : IsToken m) (h : IsToken tok) :
    assembleLine (m ++ ' ' :: tok) = assembleTokens [m, tok] :=
  assembleLine_of_operands hm (toks := [tok]) (by simpa using h)

/-! ### Numbers are tokens -/

theorem isTokenChar_of_digitValue {c : Char} {d : Nat} (h : digitValue c = some d) : isTokenChar c = true := by
  by_contra hc
  have hseparator : c = ',' ∨ c = ';' ∨ c = ' ' ∨ c = '\t' ∨ c = '\r' := by
    simpa [isTokenChar, isBlankChar, ← or_iff_not_imp_left] using hc
  rcases hseparator with rfl | rfl | rfl | rfl | rfl <;> cases h

theorem isTokenChar_of_digitsValue {base sofar n : Nat} {cs : List Char} (h : digitsValue base sofar cs = some n) :
    ∀ c ∈ cs, isTokenChar c = true := by
  induction cs generalizing sofar with
  | nil => nofun
  | cons c cs ih =>
    unfold digitsValue at h
    split at h
    · cases h
    next hd =>
      split_ifs at h
      exact List.forall_mem_cons.mpr ⟨isTokenChar_of_digitValue hd, ih h⟩

theorem isToken_of_numberIn {base n : Nat} {cs : List Char} (h : numberIn base cs = some n) : IsToken cs := by
  unfold numberIn at h
  split_ifs at h with hcs
  exact ⟨hcs, List.all_eq_true.mpr (isTokenChar_of_digitsValue h)⟩

theorem isToken_of_parseNumber {tok : List Char} {n : Nat} (h : parseNumber tok = some n) : IsToken tok := by
  unfold parseNumber at h
  split at h
  · exact .cons (by decide) (.cons (by decide) (isToken_of_numberIn h))
  · exact .cons (by decide) (.cons (by decide) (isToken_of_numberIn h))
  · exact isToken_of_numberIn h

/-! ### The texts of a byte read as its value -/

theorem digitValue_digitChar : ∀ d < 16, digitValue (digitChar d) = some d := by decide

theorem digitsValue_append (base sofar : Nat) (cs ds : List Char) :
    digitsValue base sofar (cs ++ ds) = (digitsValue base sofar cs).bind fun n => digitsValue base n ds := by
  induction cs generalizing sofar with
  | nil => rfl
  | cons c cs ih =>
    rw [List.cons_append, digitsValue, digitsValue]
    cases digitValue c with
    | none => rfl
    | some d => by_cases hd : d < base <;> simp [hd, ih]

theorem digitsValue_digitsOf {base : Nat} (hpos : 0 < base) (hbase : base ≤ 16) (k sofar n : Nat) :
    digitsValue base sofar (digitsOf base k n) = some (sofar * base ^ k + n % base ^ k) := by
  induction k generalizing n with
  | zero => simp [digitsOf, digitsValue, Nat.mod_one]
  | succ k ih =>
    have hlt : n % base < base := Nat.mod_lt n hpos
    have hdigit : digitValue (digitChar (n % base)) = some (n % base) := digitValue_digitChar _ (hlt.trans_le hbase)
    have hvalue : (sofar * base ^ k + n / base % base ^ k) * base + n % base =
        sofar * base ^ (k + 1) + n % base ^ (k + 1) := by
      rw [pow_succ', Nat.mod_mul]
      ring
    simp [digitsOf, digitsValue_append, ih, digitsValue, hdigit, hlt, hvalue]

theorem numberIn_digitsOf {base k n : Nat} (hpos : 0 < base) (hbase : base ≤ 16) (hn : n < base ^ (k + 1)) :
    numberIn base (digitsOf base (k + 1) n) = some n := by
  have hne : digitsOf base (k + 1) n ≠ [] := by simp [digitsOf]
  rw [numberIn, if_neg hne, digitsValue_digitsOf hpos hbase, Nat.mod_eq_of_lt hn, Nat.zero_mul, Nat.zero_add]

/-- A decimal number is not read as one of another base: that base's letter is no decimal digit. -/
theorem parseNumber_of_decimal {cs : List Char} {n : Nat} (h : numberIn 10 cs = some n) : parseNumber cs = some n := by
  unfold parseNumber
  split
  · cases h
  · cases h
  · exact h

theorem parseNumber_hexadecimal (cs : List Char) : parseNumber ('0' :: 'x' :: cs) = numberIn 16 cs := rfl

theorem parseNumber_binary (cs : List Char) : parseNumber ('0' :: 'b' :: cs) = numberIn 2 cs := rfl

theorem parseNumber_decimalText (b : Byte) : parseNumber (decimalText b) = some b.toNat := by
  have hb : b.toNat < 256 := b.isLt
  refine parseNumber_of_decimal ?_
  unfold decimalText
  split_ifs with h10 h100
  · exact numberIn_digitsOf (by decide) (by decide) h10
  · exact numberIn_digitsOf (by decide) (by decide) h100
  · exact numberIn_digitsOf (by decide) (by decide) (hb.trans (by decide))

theorem parseNumber_hexText (b : Byte) : parseNumber (hexText b) = some b.toNat :=
  (parseNumber_hexadecimal _).trans (numberIn_digitsOf (by decide) (by decide) b.isLt)

theorem parseNumber_binaryText (b : Byte) : parseNumber (binaryText b) = some b.toNat :=
  (parseNumber_binary _).trans (numberIn_digitsOf (by decide) (by decide) b.isLt)

theorem parseNumber_minus (cs : List Char) : parseNumber ('-' :: cs) = none := rfl

/-! ### Operands -/

theorem parseOperand_of_lt {bound n : Nat} {tok : List Char} (h : parseNumber tok = some n) (hn : n < bound) :
    parseOperand bound tok = .ok n := by
  simp [parseOperand, h, hn]

theorem parseOperand_of_ge {bound n : Nat} {tok : List Char} (h : parseNumber tok = some n) (hn : bound ≤ n) :
    parseOperand bound tok = .error .outOfRange := by
  simp [parseOperand, h, hn]

theorem parseOperand_minus (bound : Nat) (cs : List Char) : parseOperand bound ('-' :: cs) = .error .notANumber := by
  simp [parseOperand, parseNumber_minus]

theorem updateWord_of_lt {n : Nat} (h : n < 256) : updateWord n = 0x200#10 ||| BitVec.ofNat 10 n := by
  rw [updateWord, encode, BitVec.setWidth_ofNat_of_le_of_lt (by decide) h]

theorem updateWord_toNat (b : Byte) : updateWord b.toNat = encode (.update b) := by
  rw [updateWord, BitVec.ofNat_toNat, BitVec.setWidth_eq]

theorem oneOperand_singleton (bound : Nat) (word : Nat → CmdWord) (tok : List Char) :
    oneOperand bound word [tok] = (parseOperand bound tok).map fun n => [word n] := by
  rw [oneOperand]
  cases parseOperand bound tok <;> rfl

theorem oneOperand_of_error {bound : Nat} {tok : List Char} {r : AsmReason} (h : parseOperand bound tok = .error r)
    (word : Nat → CmdWord) : oneOperand bound word [tok] = .error r := by
  rw [oneOperand_singleton, h]
  rfl

/-- A first operand of `crc` is read as one after a comma. -/
theorem crcOperands_of_ne_nil {toks : List (List Char)} (h : toks ≠ []) : crcOperands toks = crcTail ([','] :: toks) := by
  cases toks with
  | nil => exact absurd rfl h
  | cons tok rest => simp [crcOperands, crcTail]

theorem crcTail_cons_of_ok {tok : List Char} {n : Nat} (h : parseOperand 256 tok = .ok n) (rest : List (List Char)) :
    crcTail ([','] :: tok :: rest) = (crcTail rest).map (updateWord n :: ·) := by
  simp only [crcTail, if_pos, h]
  cases crcTail rest <;> rfl

theorem crcTail_cons_of_error {tok : List Char} {r : AsmReason} (h : parseOperand 256 tok = .error r)
    (rest : List (List Char)) : crcTail ([','] :: tok :: rest) = .error r := by
  simp [crcTail, h]

theorem crcTail_commaTokens {x : List Char × Nat} {operands : List (List Char × Nat)}
    (h : ∀ y ∈ x :: operands, parseOperand 256 y.1 = .ok y.2) :
    crcTail ([','] :: commaTokens ((x :: operands).map Prod.fst)) =
      .ok ((x :: operands).map fun y => updateWord y.2) := by
  induction operands generalizing x with
  | nil => exact crcTail_cons_of_ok (h x List.mem_cons_self) []
  | cons y operands ih =>
    obtain ⟨hx, hoperands⟩ := List.forall_mem_cons.mp h
    exact (crcTail_cons_of_ok hx _).trans (congrArg (Except.map (updateWord x.2 :: ·)) (ih hoperands))

/-- Operands below 256 give an `UPDATE` each, in order (R51). -/
theorem crcOperands_commaTokens {operands : List (List Char × Nat)}
    (h : ∀ x ∈ operands, parseOperand 256 x.1 = .ok x.2) :
    crcOperands (commaTokens (operands.map Prod.fst)) = .ok (operands.map fun x => updateWord x.2) := by
  cases operands with
  | nil => rfl
  | cons x operands =>
    have hne : commaTokens ((x :: operands).map Prod.fst) ≠ [] := by cases operands <;> nofun
    rw [crcOperands_of_ne_nil hne, crcTail_commaTokens h]

/-- The first refused operand of `crc` names the refusal (R52; log entry 12). -/
theorem crcOperands_of_error {earlier : List (List Char)} {x : List Char} {r : AsmReason}
    (hearlier : ∀ y ∈ earlier, ∃ k, parseOperand 256 y = .ok k) (hx : parseOperand 256 x = .error r)
    (more : List (List Char)) :
    crcOperands ((earlier.flatMap fun y => [y, [',']]) ++ x :: more) = .error r := by
  rw [crcOperands_of_ne_nil (by simp)]
  induction earlier with
  | nil => exact crcTail_cons_of_error hx more
  | cons y earlier ih =>
    obtain ⟨⟨k, hy⟩, hrest⟩ := List.forall_mem_cons.mp hearlier
    exact (crcTail_cons_of_ok hy _).trans (congrArg (Except.map (updateWord k :: ·)) (ih hrest))

/-- `crc` emits no word but those of `UPDATE`s after its `INIT` (R51). -/
theorem crcTail_ok {toks : List (List Char)} {ws : List CmdWord} (h : crcTail toks = .ok ws) :
    ∀ w ∈ ws, ∃ n, w = updateWord n := by
  fun_induction crcTail toks generalizing ws with
  | case1 => cases h; nofun
  | case2 | case3 | case4 | case6 => cases h
  | case5 tok rest n _ vs hvs ih => cases h; exact List.forall_mem_cons.mpr ⟨⟨n, rfl⟩, ih hvs⟩

theorem crcOperands_ok {toks : List (List Char)} {ws : List CmdWord} (h : crcOperands toks = .ok ws) :
    ∀ w ∈ ws, ∃ n, w = updateWord n := by
  cases toks with
  | nil => cases h; nofun
  | cons tok rest => exact crcTail_ok (crcOperands_of_ne_nil (List.cons_ne_nil tok rest) ▸ h)

/-! ### The words of each mnemonic -/

theorem assembleTokens_nop {m : List Char} (hm : m ∈ ["nop".toList, "NOP".toList]) (operands : List (List Char)) :
    assembleTokens (m :: operands) = noOperand (encode .nop) operands := by
  revert m
  simp [assembleTokens, isMnemonic]

theorem assembleTokens_init {m : List Char} (hm : m ∈ ["init".toList, "INIT".toList]) (operands : List (List Char)) :
    assembleTokens (m :: operands) = noOperand (encode .init) operands := by
  revert m
  simp [assembleTokens, isMnemonic]

theorem assembleTokens_update {m : List Char} (hm : m ∈ ["update".toList, "UPDATE".toList])
    (operands : List (List Char)) : assembleTokens (m :: operands) = oneOperand 256 updateWord operands := by
  revert m
  simp [assembleTokens, isMnemonic]

theorem assembleTokens_cmd (operands : List (List Char)) :
    assembleTokens (".cmd".toList :: operands) = oneOperand 1024 (fun n => BitVec.ofNat 10 n) operands := by
  simp [assembleTokens, isMnemonic]

theorem assembleTokens_crc {m : List Char} (hm : m ∈ ["crc".toList, "CRC".toList]) (operands : List (List Char)) :
    assembleTokens (m :: operands) = (crcOperands operands).map (encode .init :: ·) := by
  revert m
  simp only [assembleTokens, isMnemonic]
  cases crcOperands operands <;> simp [Except.map]

/-- Any other first token is an unknown mnemonic (R52; log entry 10). -/
theorem assembleTokens_unknown {m : List Char} (hm : m ∉ ["nop".toList, "NOP".toList, "init".toList, "INIT".toList,
    "update".toList, "UPDATE".toList, "crc".toList, "CRC".toList, ".cmd".toList]) (operands : List (List Char)) :
    assembleTokens (m :: operands) = .error .unknownMnemonic := by
  simp only [List.mem_cons, List.not_mem_nil, or_false, not_or] at hm
  simp only [assembleTokens, isMnemonic, Bool.or_eq_true, beq_iff_eq, hm, or_self, if_false]

/-- The first token is one of those a line can begin with, or an unknown one. -/
theorem mnemonic_cases (m : List Char) :
    m ∈ ["nop".toList, "NOP".toList] ∨ m ∈ ["init".toList, "INIT".toList] ∨ m ∈ ["update".toList, "UPDATE".toList] ∨
      m ∈ ["crc".toList, "CRC".toList] ∨ m = ".cmd".toList ∨
      m ∉ ["nop".toList, "NOP".toList, "init".toList, "INIT".toList, "update".toList, "UPDATE".toList, "crc".toList,
        "CRC".toList, ".cmd".toList] := by
  simpa only [List.mem_cons, List.not_mem_nil, or_false, or_assoc] using
    em (m ∈ ["nop".toList, "NOP".toList, "init".toList, "INIT".toList, "update".toList, "UPDATE".toList, "crc".toList,
      "CRC".toList, ".cmd".toList])

theorem noOperand_ok {v : CmdWord} {operands : List (List Char)} {ws : List CmdWord} (h : noOperand v operands = .ok ws) :
    ws = [v] := by
  unfold noOperand at h
  split_ifs at h
  cases h
  rfl

theorem oneOperand_ok {bound : Nat} {word : Nat → CmdWord} {operands : List (List Char)} {ws : List CmdWord}
    (h : oneOperand bound word operands = .ok ws) : ∃ n, ws = [word n] := by
  match operands with
  | [] => cases h
  | [tok] =>
    rw [oneOperand_singleton] at h
    cases hn : parseOperand bound tok with
    | error r => rw [hn] at h; cases h
    | ok n => rw [hn] at h; cases h; exact ⟨n, rfl⟩
  | _ :: _ :: _ => cases h

theorem legalWord_encode (i : Instr) : legalWord (encode i) = true := legalWord_iff_decode_ok.mpr ⟨i, decode_encode i⟩

/-- Without the raw directive a line emits words of commands only (R50). -/
theorem legalWord_of_assembleTokens {m : List Char} {operands : List (List Char)} {ws : List CmdWord}
    (hm : m ≠ ".cmd".toList) (h : assembleTokens (m :: operands) = .ok ws) : ∀ w ∈ ws, legalWord w = true := by
  rcases mnemonic_cases m with hnop | hinit | hupdate | hcrc | hcmd | hunknown
  · rw [assembleTokens_nop hnop] at h
    rw [noOperand_ok h]
    simp [legalWord_encode]
  · rw [assembleTokens_init hinit] at h
    rw [noOperand_ok h]
    simp [legalWord_encode]
  · rw [assembleTokens_update hupdate] at h
    obtain ⟨n, rfl⟩ := oneOperand_ok h
    simp [updateWord, legalWord_encode]
  · rw [assembleTokens_crc hcrc] at h
    cases hvs : crcOperands operands with
    | error r => rw [hvs] at h; cases h
    | ok vs =>
      rw [hvs] at h
      cases h
      refine List.forall_mem_cons.mpr ⟨legalWord_encode _, fun w hw => ?_⟩
      obtain ⟨n, rfl⟩ := crcOperands_ok hvs w hw
      exact legalWord_encode _
  · exact absurd hcmd hm
  · rw [assembleTokens_unknown hunknown] at h
    cases h

/-! ### Lines -/

theorem linesFrom_of_not_mem {line : List Char} (h : '\n' ∉ line) (cur : List Char) :
    linesFrom cur line = [cur ++ line] := by
  induction line generalizing cur with
  | nil => simp [linesFrom]
  | cons c line ih =>
    have hc : c ≠ '\n' := (List.ne_of_not_mem_cons h).symm
    simp [linesFrom, hc, ih (List.not_mem_of_not_mem_cons h)]

theorem linesFrom_append_newline {line : List Char} (h : '\n' ∉ line) (cur text : List Char) :
    linesFrom cur (line ++ '\n' :: text) = (cur ++ line) :: linesFrom [] text := by
  induction line generalizing cur with
  | nil => simp [linesFrom]
  | cons c line ih =>
    have hc : c ≠ '\n' := (List.ne_of_not_mem_cons h).symm
    simp [linesFrom, hc, ih (List.not_mem_of_not_mem_cons h)]

theorem joinLines_cons_of_ne_nil (line : List Char) {lines : List (List Char)} (h : lines ≠ []) :
    joinLines (line :: lines) = line ++ '\n' :: joinLines lines := by
  cases lines with
  | nil => exact absurd rfl h
  | cons next lines => rfl

/-- The lines of a joined text begin with those it was joined of, up to the first that holds a line feed itself. -/
theorem linesFrom_joinLines {before : List (List Char)} {line : List Char} (hbefore : ∀ l ∈ before, '\n' ∉ l)
    (hline : '\n' ∉ line) (after : List (List Char)) :
    ∃ rest, linesFrom [] (joinLines (before ++ line :: after)) = before ++ line :: rest := by
  induction before with
  | nil =>
    by_cases hafter : after = []
    · exact ⟨[], by rw [hafter]; exact linesFrom_of_not_mem hline []⟩
    · refine ⟨linesFrom [] (joinLines after), ?_⟩
      rw [List.nil_append, joinLines_cons_of_ne_nil line hafter]
      exact linesFrom_append_newline hline [] _
  | cons l before ih =>
    obtain ⟨hl, hrest⟩ := List.forall_mem_cons.mp hbefore
    obtain ⟨rest, hlines⟩ := ih hrest
    refine ⟨rest, ?_⟩
    rw [List.cons_append, joinLines_cons_of_ne_nil l (by simp), linesFrom_append_newline hl, hlines]
    rfl

theorem assembleLines_cons_of_ok {line : List Char} {ws : List CmdWord} (h : assembleLine line = .ok ws) (n : Nat)
    (lines : List (List Char)) :
    assembleLines n (line :: lines) = (assembleLines (n + 1) lines).map (ws ++ ·) := by
  simp only [assembleLines, h]
  cases assembleLines (n + 1) lines <;> rfl

theorem assembleLines_cons_of_error {line : List Char} {r : AsmReason} (h : assembleLine line = .error r) (n : Nat)
    (lines : List (List Char)) : assembleLines n (line :: lines) = .error { line := n, reason := r } := by
  simp only [assembleLines, h]

/-- The words of lines do not depend on where their numbers begin. -/
theorem assembleLines_ok_renumber {n : Nat} {lines : List (List Char)} {ws : List CmdWord}
    (h : assembleLines n lines = .ok ws) (k : Nat) : assembleLines k lines = .ok ws := by
  induction lines generalizing n k ws with
  | nil => exact h
  | cons line lines ih =>
    cases hline : assembleLine line with
    | error r => rw [assembleLines_cons_of_error hline] at h; cases h
    | ok vs =>
      rw [assembleLines_cons_of_ok hline] at h ⊢
      cases hlines : assembleLines (n + 1) lines with
      | error e => rw [hlines] at h; cases h
      | ok us => rw [ih hlines (k + 1), ← hlines, h]

/-- The first refused line refuses the text with its number (R52; log entry 16). -/
theorem assembleLines_of_error {before : List (List Char)} {line : List Char} {r : AsmReason}
    (hbefore : ∀ l ∈ before, ∃ ws, assembleLine l = .ok ws) (hline : assembleLine line = .error r) (n : Nat)
    (after : List (List Char)) :
    assembleLines n (before ++ line :: after) = .error { line := before.length + n, reason := r } := by
  induction before generalizing n with
  | nil => rw [List.length_nil, Nat.zero_add]; exact assembleLines_cons_of_error hline n after
  | cons l before ih =>
    obtain ⟨⟨ws, hl⟩, hrest⟩ := List.forall_mem_cons.mp hbefore
    rw [List.cons_append, assembleLines_cons_of_ok hl, ih hrest, List.length_cons, Nat.add_right_comm]
    rfl

theorem assemble_append_newline {line text : List Char} {ws vs : List CmdWord} (hnewline : '\n' ∉ line)
    (hline : assembleLine line = .ok ws) (htext : assemble text = .ok vs) :
    assemble (line ++ '\n' :: text) = .ok (ws ++ vs) := by
  have htail : assembleLines 2 (linesFrom [] text) = .ok vs := assembleLines_ok_renumber htext 2
  rw [assemble, linesFrom_append_newline hnewline, List.nil_append, assembleLines_cons_of_ok hline, htail]
  rfl

/-! ### The statements about the assembler -/

/-- A mnemonic that takes no operand, alone on its line. -/
theorem assembleLine_of_noOperand {m : List Char} {w : CmdWord} (hm : IsToken m)
    (h : assembleTokens [m] = noOperand w []) : assembleLine m = .ok [w] := by
  rw [assembleLine_of_token hm, h, noOperand, if_pos rfl]

theorem assembleLine_nop {m : List Char} (hm : m ∈ ["nop".toList, "NOP".toList]) : assembleLine m = .ok [encode .nop] :=
  assembleLine_of_noOperand ((by decide : ∀ m ∈ ["nop".toList, "NOP".toList], IsToken m) m hm) (assembleTokens_nop hm [])

theorem assembleLine_init {m : List Char} (hm : m ∈ ["init".toList, "INIT".toList]) :
    assembleLine m = .ok [encode .init] :=
  assembleLine_of_noOperand ((by decide : ∀ m ∈ ["init".toList, "INIT".toList], IsToken m) m hm)
    (assembleTokens_init hm [])

theorem assembleTokens_update_of_lt {m tok : List Char} {n : Nat} (hm : m ∈ ["update".toList, "UPDATE".toList])
    (h : parseNumber tok = some n) (hn : n < 256) : assembleTokens [m, tok] = .ok [updateWord n] := by
  rw [assembleTokens_update hm, oneOperand_singleton, parseOperand_of_lt h hn]
  rfl

theorem assembleTokens_cmd_of_lt {tok : List Char} {n : Nat} (h : parseNumber tok = some n) (hn : n < 1024) :
    assembleTokens [".cmd".toList, tok] = .ok [BitVec.ofNat 10 n] := by
  rw [assembleTokens_cmd, oneOperand_singleton, parseOperand_of_lt h hn]
  rfl

/-- `update` of a text that reads as a byte's value. -/
theorem assembleLine_update {m imm : List Char} {b : Byte} (hm : m ∈ ["update".toList, "UPDATE".toList])
    (h : parseNumber imm = some b.toNat) : assembleLine (m ++ ' ' :: imm) = .ok [encode (.update b)] := by
  have htoken : IsToken m := (by decide : ∀ m ∈ ["update".toList, "UPDATE".toList], IsToken m) m hm
  rw [assembleLine_of_operand htoken (isToken_of_parseNumber h), assembleTokens_update_of_lt hm h b.isLt,
    updateWord_toNat]

theorem assembleLine_render (i : Instr) : assembleLine (render i) = .ok [encode i] := by
  cases i with
  | nop => exact assembleLine_nop (by decide)
  | init => exact assembleLine_init (by decide)
  | update b => exact assembleLine_update (m := "update".toList) (by decide) (parseNumber_hexText b)

/-- Settles O52: each line falls into a mnemonic and an operand that reads as its value, a comment is cut off, and the lines
of a text are those before and after a line feed. -/
theorem assemblerFollowsTheSyntaxTable : Obligations.AssemblerFollowsTheSyntaxTable := by
  refine ⟨assembleLine_render, fun _ => assembleLine_nop, fun _ => assembleLine_init, fun m hm b imm himm => ?_,
    fun m hm tok n h hn => ?_, by decide, by decide, by decide, fun line comment => ?_,
    fun _ _ _ _ => assemble_append_newline⟩
  · have hnumber : parseNumber imm = some b.toNat := by
      simp only [List.mem_cons, List.not_mem_nil, or_false] at himm
      rcases himm with rfl | rfl | rfl
      · exact parseNumber_decimalText b
      · exact parseNumber_hexText b
      · exact parseNumber_binaryText b
    simp only [List.mem_cons, List.not_mem_nil, or_false] at hm
    rcases hm with rfl | rfl
    · exact assembleLine_update (m := "update".toList) (by decide) hnumber
    · exact assembleLine_update (m := "UPDATE".toList) (by decide) hnumber
  · rw [assembleTokens_update_of_lt hm h hn, updateWord_of_lt hn]
  · rw [assembleLine, stripComment_append_comment, ← assembleLine]

/-- Settles O53: three hexadecimal digits hold every word, and each other mnemonic emits words of commands. -/
theorem rawDirectiveIsTheOnlyWayToAReservedWord : Obligations.RawDirectiveIsTheOnlyWayToAReservedWord := by
  refine ⟨fun w => ?_, fun _ _ => assembleTokens_cmd_of_lt, fun line ws w h hw hreserved => ?_⟩
  · have hnumber : parseNumber ('0' :: 'x' :: digitsOf 16 3 w.toNat) = some w.toNat :=
      (parseNumber_hexadecimal _).trans (numberIn_digitsOf (by decide) (by decide) (w.isLt.trans (by decide)))
    calc assembleLine (".cmd 0x".toList ++ digitsOf 16 3 w.toNat)
        = assembleTokens [".cmd".toList, '0' :: 'x' :: digitsOf 16 3 w.toNat] :=
          assembleLine_of_operand (m := ".cmd".toList) (by decide) (isToken_of_parseNumber hnumber)
      _ = .ok [BitVec.ofNat 10 w.toNat] := assembleTokens_cmd_of_lt hnumber w.isLt
      _ = .ok [w] := by rw [BitVec.ofNat_toNat, BitVec.setWidth_eq]
  · rw [assembleLine] at h
    generalize tokensFrom [] (stripComment line) = toks at h ⊢
    cases toks with
    | nil => cases h; cases hw
    | cons m operands =>
      by_contra hm
      have hlegal := legalWord_of_assembleTokens (fun hcmd => hm (congrArg some hcmd)) h w hw
      rw [hreserved] at hlegal
      cases hlegal

theorem assembleTokens_crc_of_lt {m : List Char} {operands : List (List Char × Nat)} (hm : m ∈ ["crc".toList, "CRC".toList])
    (h : ∀ x ∈ operands, parseNumber x.1 = some x.2 ∧ x.2 < 256) :
    assembleTokens (m :: commaTokens (operands.map Prod.fst)) =
      .ok (0x100#10 :: operands.map fun x => 0x200#10 ||| BitVec.ofNat 10 x.2) := by
  have hread : ∀ x ∈ operands, parseOperand 256 x.1 = .ok x.2 := fun x hx => parseOperand_of_lt (h x hx).1 (h x hx).2
  have hwords : operands.map (fun x => updateWord x.2) = operands.map fun x => 0x200#10 ||| BitVec.ofNat 10 x.2 :=
    List.map_congr_left fun x hx => updateWord_of_lt (h x hx).2
  rw [assembleTokens_crc hm, crcOperands_commaTokens hread, hwords]
  rfl

theorem isToken_crc {m : List Char} (hm : m ∈ ["crc".toList, "CRC".toList]) : IsToken m :=
  (by decide : ∀ m ∈ ["crc".toList, "CRC".toList], IsToken m) m hm

theorem assembleLine_crc_of_lt {m : List Char} {operands : List (List Char × Nat)} (hm : m ∈ ["crc".toList, "CRC".toList])
    (h : ∀ x ∈ operands, parseNumber x.1 = some x.2 ∧ x.2 < 256) :
    assembleLine (m ++ ' ' :: joinOperands (operands.map Prod.fst)) =
      .ok (0x100#10 :: operands.map fun x => 0x200#10 ||| BitVec.ofNat 10 x.2) := by
  have htokens : ∀ tok ∈ operands.map Prod.fst, IsToken tok :=
    List.forall_mem_map.mpr fun x hx => isToken_of_parseNumber (h x hx).1
  rw [assembleLine_of_operands (isToken_crc hm) htokens, assembleTokens_crc_of_lt hm h]

theorem assembleLine_renderCrc (bs : List Byte) :
    assembleLine (renderCrc bs) = .ok (encode .init :: updateWords bs) := by
  have hline := assembleLine_crc_of_lt (m := "crc".toList) (operands := bs.map fun b => (hexText b, b.toNat)) (by decide)
    (List.forall_mem_map.mpr fun b _ => ⟨parseNumber_hexText b, b.isLt⟩)
  have hwords : bs.map (fun b => 0x200#10 ||| BitVec.ofNat 10 b.toNat) = updateWords bs :=
    List.map_congr_left fun b _ => by rw [BitVec.ofNat_toNat]; rfl
  rw [List.map_map, List.map_map] at hline
  rw [← hwords]
  exact hline

/-- Settles O54: the tokens of a `crc` line are its operands with a comma between each two, each an `UPDATE` of its value, and
the block takes `INIT` and `UPDATE`s to the checksum. -/
theorem crcExpandsAndComputesTheChecksum : Obligations.CrcExpandsAndComputesTheChecksum := by
  refine ⟨fun m hm => ?_, fun m hm operands h => ⟨assembleLine_crc_of_lt hm h, fun line hline => ?_⟩,
    fun bs => ⟨assembleLine_renderCrc bs, fun s hm => ?_⟩⟩
  · rw [assembleLine_of_token (isToken_crc hm)]
    exact assembleTokens_crc_of_lt (operands := []) hm nofun
  · rw [assembleLine, hline, assembleTokens_crc_of_lt hm h]
  · have hrun := runSteps_presenting_of_run (encode .init :: updateWords bs) hm
    rw [wordsEffect_init_updateWords bs hm, List.length_cons, updateWords, List.length_map] at hrun
    exact ⟨_, hrun, hm, rfl⟩

theorem assembleTokens_crc_of_error {m x : List Char} {earlier : List (List Char)} {r : AsmReason}
    (hm : m ∈ ["crc".toList, "CRC".toList]) (hearlier : ∀ y ∈ earlier, ∃ k, parseNumber y = some k ∧ k < 256)
    (hx : parseOperand 256 x = .error r) (more : List (List Char)) :
    assembleTokens (m :: (earlier.flatMap fun y => [y, [',']]) ++ x :: more) = .error r := by
  have hread : ∀ y ∈ earlier, ∃ k, parseOperand 256 y = .ok k := fun y hy =>
    let ⟨k, hk, hlt⟩ := hearlier y hy
    ⟨k, parseOperand_of_lt hk hlt⟩
  rw [List.cons_append, assembleTokens_crc hm, crcOperands_of_error hread hx]
  rfl

/-- Settles O55: each mnemonic refuses the operands it does not take, and the lines before the first refused one are read as
they were joined. -/
theorem assemblerRefusesWithTheLineNumber : Obligations.AssemblerRefusesWithTheLineNumber := by
  refine ⟨fun m operands hm => assembleTokens_unknown hm operands, fun m hm => ⟨?_, fun x y more => ?_, fun x n h hn => ?_⟩,
    fun m hm earlier x n more hearlier h hn => assembleTokens_crc_of_error hm hearlier (parseOperand_of_ge h hn) more,
    fun x n h hn => ?_, fun m hm x more => ?_, fun _ => rfl, fun before line after reason hbefore hline =>
      ⟨assembleLines_of_error hbefore hline 1 after, fun hbefore' hline' => ?_⟩⟩
  · rw [assembleTokens_update hm]; rfl
  · rw [assembleTokens_update hm]; rfl
  · rw [assembleTokens_update hm, oneOperand_of_error (parseOperand_of_ge h hn)]
  · rw [assembleTokens_cmd, oneOperand_of_error (parseOperand_of_ge h hn)]
  · have hsplit : m ∈ ["nop".toList, "NOP".toList] ∨ m ∈ ["init".toList, "INIT".toList] := List.mem_append.mp hm
    rcases hsplit with hnop | hinit
    · rw [assembleTokens_nop hnop]; rfl
    · rw [assembleTokens_init hinit]; rfl
  · obtain ⟨rest, hlines⟩ := linesFrom_joinLines hbefore' hline' after
    rw [assemble, hlines, assembleLines_of_error hbefore hline]

/-- Settles O56: a minus sign is no digit, and no number of any base begins with one. -/
theorem negativeOperandsAreRefused : Obligations.NegativeOperandsAreRefused := by
  refine ⟨fun m hm digits => ?_, fun m hm earlier digits more hearlier =>
    assembleTokens_crc_of_error hm hearlier (parseOperand_minus 256 digits) more⟩
  have hsplit : m ∈ ["update".toList, "UPDATE".toList] ∨ m ∈ [".cmd".toList] := List.mem_append.mp hm
  rcases hsplit with hupdate | hcmd
  · rw [assembleTokens_update hupdate, oneOperand_of_error (parseOperand_minus 256 digits)]
  · rw [List.mem_singleton.mp hcmd, assembleTokens_cmd, oneOperand_of_error (parseOperand_minus 1024 digits)]

/-! ### Choices of the model about the block -/

theorem Block.absorbByte_of_acc_none {b : Block} (d : Byte) (h : b.acc = none) : b.absorbByte d = b := by
  rw [Block.absorbByte, h, Option.map_none, ← h]

/-- Settles O25: absorbing into no value leaves the block as it is. -/
theorem updateOfNoValueKeepsNone : Obligations.UpdateOfNoValueKeepsNone := by
  intro s b hm hacc
  rw [exec_update, whenRunning_of_run hm, Block.absorbByte_of_acc_none b hacc]

/-- Settles O43: both events assert reset, and a step on one that does discards the rest of it. -/
theorem resetWinsOverAWordInTheSameStep : Obligations.ResetWinsOverAWordInTheSameStep :=
  fun _ _ _ hp => by rw [step_of_isReset hp rfl, step_of_isReset rfl rfl]

/-- Settles O44: there is no event to act, or one that acts on nothing. -/
theorem waitingChangesNothing : Obligations.WaitingChangesNothing :=
  ⟨fun _ => step_of_nil, fun _ _ hp => step_of_cons hp⟩

end Sys2Proof.Machine
